-- ==== Sys2Proof/Word.lean ====
section
/-! DEFINITION. The word and byte types of the engine (R11, R13). -/

namespace Sys2Proof

/-- A byte of a buffer or of a frame (`u8`, R13). -/
abbrev Byte := BitVec 8

/-- A register of the register map: "every host-visible register of the engine is 32 bits wide" (R11). -/
abbrev Word := BitVec 32

/-- A 64-bit quantity held in a `_LO`/`_HI` pair of registers (R11, R48). -/
abbrev DWord := BitVec 64

end Sys2Proof
end

