-- ==== Sys2Proof/Config.lean ====
section
/-! DEFINITION. What an implementation fixes, and the free value the spec leaves open. -/

namespace Sys2Proof.Config

/-- The largest capacity of a buffer, `2^64 - 1` (R9). -/
def maxCap : Nat := 2 ^ 64 - 1

/-- The smallest OUT_CAP: the largest header and a mask key (R9). -/
def minOutCap : Nat := 14

/-- DESIGN CHOICE (log 1): the IN_CAP of `State.reset`, the value `95_test_vectors.md` uses unless a vector says otherwise.
Every other part of the model takes IN_CAP as it stands in the state. -/
def inCapAtReset : Nat := 131072

/-- DESIGN CHOICE (log 1): the OUT_CAP of `State.reset`; as `inCapAtReset`. -/
def outCapAtReset : Nat := 131072

/-- Free value (log 3): what a host read of an OUT_BUF byte returns while a command is in flight (R131). Applied to the
state's `freeCount`. -/
opaque freeByte : Nat → Byte

end Sys2Proof.Config
end

