-- ==== Sys2Proof/Syntax.lean ====
section
/-! DEFINITION. The instructions: one constructor for each row of `spec/opcode_table.json`. The command rows are
selected by CMD.OP (R61); the wire rows are the three length classes of a frame header (R64 to R67). -/

namespace Sys2Proof

/-- The five fields of frame byte 0 (R64): the table's letters F, A, B, C and O. -/
structure FrameFlags where
  fin    : Bool
  rsv1   : Bool
  rsv2   : Bool
  rsv3   : Bool
  opcode : BitVec 4
  deriving DecidableEq, Repr

/-- An instruction. For a wire row the mask-present bit M is whether `key` holds the 4 key bytes (R67, first wire byte in
bits 31:24, R47), and the extended length is an operand of its class (R66). -/
inductive Instr where
  /-- MASK, OP 1 (R79). -/
  | mask
  /-- HDR_ENCODE, OP 2 (R85). -/
  | hdrEncode
  /-- HDR_DECODE, OP 3 (R89). -/
  | hdrDecode
  /-- BUILD, OP 4 (R94). -/
  | build
  /-- PARSE, OP 5, with CMD bit 8 AUTO_UNMASK (R102). -/
  | parse (autoUnmask : Bool)
  /-- The reserved command code 0 (R62). -/
  | reservedOp0
  /-- The reserved command code 6 (R62). -/
  | reservedOp6
  /-- The reserved command code 7 (R62). -/
  | reservedOp7
  /-- A frame header of the literal class: marker 0 to 125 is the payload length (R66). -/
  | frameLen7 (flags : FrameFlags) (marker : BitVec 7) (key : Option Word)
  /-- A frame header of the 16-bit class: marker 126 and a 16-bit extended length (R66). -/
  | frameLen16 (flags : FrameFlags) (length : BitVec 16) (key : Option Word)
  /-- A frame header of the 64-bit class: marker 127 and a 64-bit extended length (R66). -/
  | frameLen64 (flags : FrameFlags) (length : BitVec 64) (key : Option Word)
  deriving DecidableEq, Repr

end Sys2Proof
end

