-- ==== Sys2Proof/WellFormed.lean ====
section
/-! DEFINITION. Which instruction terms stand for an encoding of the spec. -/

namespace Sys2Proof

/-- The constraint of row FRAME_LEN7: the marker of the literal class is at most 125 (R66). The other rows have no
constraint: any opcode, RSV bit (R70, R71) and extended length, minimal or not (R72, R73), is legal. -/
def Instr.wellFormed : Instr → Bool
  | .mask => true
  | .hdrEncode => true
  | .hdrDecode => true
  | .build => true
  | .parse _ => true
  | .reservedOp0 => true
  | .reservedOp6 => true
  | .reservedOp7 => true
  | .frameLen7 _ marker _ => decide (marker.toNat ≤ 125)
  | .frameLen16 _ _ _ => true
  | .frameLen64 _ _ _ => true

end Sys2Proof
end

