-- ==== Sys2Proof/Decode.lean ====
section
/-! DEFINITION. The two encodings of `30_encoding.md`, each with its decoder and encoder: the command word (CMD, R61) and
the frame wire format (R64 to R67), with the byte-order helpers of R13. -/

namespace Sys2Proof

/-- `beval(s)`: the big-endian value of a byte sequence (R13). -/
def beval (s : List Byte) : Nat :=
  s.foldl (fun acc b => acc * 256 + b.toNat) 0

/-- `BE16(v)` (R13). -/
def be16 (v : BitVec 16) : List Byte :=
  [v.extractLsb' 8 8, v.extractLsb' 0 8]

/-- Four bytes, most significant first: the order of the key bytes in KEY and R_KEY (R27, R47). -/
def be32 (v : Word) : List Byte :=
  [v.extractLsb' 24 8, v.extractLsb' 16 8, v.extractLsb' 8 8, v.extractLsb' 0 8]

/-- `BE64(v)` (R13). -/
def be64 (v : DWord) : List Byte :=
  [v.extractLsb' 56 8, v.extractLsb' 48 8, v.extractLsb' 40 8, v.extractLsb' 32 8,
   v.extractLsb' 24 8, v.extractLsb' 16 8, v.extractLsb' 8 8, v.extractLsb' 0 8]

/-- Frame byte 0, `F A B C O O O O` (R64). -/
def FrameFlags.byte0 (f : FrameFlags) : Byte :=
  BitVec.ofBool f.fin ++ BitVec.ofBool f.rsv1 ++ BitVec.ofBool f.rsv2 ++ BitVec.ofBool f.rsv3 ++ f.opcode

/-- The fields of frame byte 0 (R64). -/
def FrameFlags.ofByte0 (b : Byte) : FrameFlags :=
  { fin := b.getLsbD 7, rsv1 := b.getLsbD 6, rsv2 := b.getLsbD 5, rsv3 := b.getLsbD 4, opcode := b.extractLsb' 0 4 }

/-- Frame byte 1, `M L L L L L L L` (R64). -/
def frameByte1 (masked : Bool) (marker : BitVec 7) : Byte :=
  BitVec.ofBool masked ++ marker

/-! ## Decoding -/

/-- Why a byte sequence holds no whole frame header, in the order of R87. -/
inductive DecodeError where
  /-- Fewer than 2 bytes (R87 a). -/
  | shortHeader
  /-- The extended length is not wholly present (R87 b). -/
  | shortLength
  /-- The mask key is not wholly present (R87 c). -/
  | shortKey
  deriving DecidableEq, Repr

/-- The command of a CMD word, selected by OP = bits 2:0 alone (R61); AUTO_UNMASK, bit 8, is PARSE's operand. Every word
has a command: OP 0, 6 and 7 are the reserved rows (R62). -/
def decodeCommand (w : Word) : Instr :=
  match (w.extractLsb' 0 3).toNat with
  | 0 => .reservedOp0
  | 1 => .mask
  | 2 => .hdrEncode
  | 3 => .hdrDecode
  | 4 => .build
  | 5 => .parse (w.getLsbD 8)
  | 6 => .reservedOp6
  | _ => .reservedOp7

/-- The mask key that follows the extended length when the mask-present bit is 1, and the rest of the bytes (R67). -/
def decodeKey (masked : Bool) (bytes : List Byte) : Except DecodeError (Option Word × List Byte) :=
  match masked, bytes with
  | false, rest => .ok (none, rest)
  | true, k0 :: k1 :: k2 :: k3 :: rest => .ok (some (k0 ++ k1 ++ k2 ++ k3), rest)
  | true, _ => .error .shortKey

/-- The frame header at the front of a byte sequence, and the bytes after it (R64, R66, R67, R69). -/
def decodeFrame (bytes : List Byte) : Except DecodeError (Instr × List Byte) :=
  match bytes with
  | b0 :: b1 :: body =>
    let flags := FrameFlags.ofByte0 b0
    let marker := b1.extractLsb' 0 7
    let masked := b1.getLsbD 7
    if marker.toNat ≤ 125 then
      (decodeKey masked body).map fun (key, rest) => (.frameLen7 flags marker key, rest)
    else if marker.toNat = 126 then
      match body with
      | l0 :: l1 :: body' =>
        (decodeKey masked body').map fun (key, rest) => (.frameLen16 flags (l0 ++ l1) key, rest)
      | _ => .error .shortLength
    else
      match body with
      | l0 :: l1 :: l2 :: l3 :: l4 :: l5 :: l6 :: l7 :: body' =>
        (decodeKey masked body').map fun (key, rest) =>
          (.frameLen64 flags (l0 ++ l1 ++ l2 ++ l3 ++ l4 ++ l5 ++ l6 ++ l7) key, rest)
      | _ => .error .shortLength
  | _ => .error .shortHeader

/-- An encoded instruction: a CMD register value, or the bytes of a frame. The two encodings are apart, as
`30_encoding.md` has them; a register value is no byte sequence (R48). -/
inductive Encoding where
  | command (w : Word)
  | frame (bytes : List Byte)
  deriving DecidableEq, Repr

/-- The instruction an encoding holds, with the frame bytes after its header (none for a command word). -/
def decode : Encoding → Except DecodeError (Instr × List Byte)
  | .command w => .ok (decodeCommand w, [])
  | .frame bytes => decodeFrame bytes

/-! ## Encoding -/

/-- The CMD word with this OP and AUTO_UNMASK, reserved bits 0 (R25). -/
def commandWord (op : BitVec 3) (autoUnmask : Bool) : Word :=
  0#23 ++ BitVec.ofBool autoUnmask ++ 0#5 ++ op

/-- The key bytes that follow the extended length: four if there is a key (R67). -/
def keyField : Option Word → List Byte
  | none => []
  | some key => be32 key

/-- The words of an instruction, from the table of R61 and the layout of R64 to R67. -/
def encode : Instr → Encoding
  | .mask => .command (commandWord 1 false)
  | .hdrEncode => .command (commandWord 2 false)
  | .hdrDecode => .command (commandWord 3 false)
  | .build => .command (commandWord 4 false)
  | .parse autoUnmask => .command (commandWord 5 autoUnmask)
  | .reservedOp0 => .command (commandWord 0 false)
  | .reservedOp6 => .command (commandWord 6 false)
  | .reservedOp7 => .command (commandWord 7 false)
  | .frameLen7 flags marker key => .frame (flags.byte0 :: frameByte1 key.isSome marker :: keyField key)
  | .frameLen16 flags length key => .frame (flags.byte0 :: frameByte1 key.isSome 126 :: (be16 length ++ keyField key))
  | .frameLen64 flags length key => .frame (flags.byte0 :: frameByte1 key.isSome 127 :: (be64 length ++ keyField key))

/-- The encoding followed by more bytes: the rest of a frame after its header. A command word has no bytes after it. -/
def Encoding.followedBy : Encoding → List Byte → Encoding
  | .command w, _ => .command w
  | .frame bytes, rest => .frame (bytes ++ rest)

/-! ## The opcode table's words (log 9) -/

/-- How many bytes the longest frame header has: 2 + 8 + 4 (R67). -/
def longestHeader : Nat := 14

/-- Whether a word of the table is a frame header's first two bytes and not a CMD word: the table gives CMD rows 32 bits
and wire rows 16. In 8 bits, a CMD word is one whose reserved bits 7:3 are 0 (R24, log 9). -/
def isFrameWord (nbits w : Nat) : Bool :=
  if nbits ≤ 8 then decide (8 ≤ w) else decide (nbits ≤ 16)

/-- The bytes of a wire row's word, as the table numbers it: byte 0 in bits 15:8 and byte 1 in bits 7:0, the operand
bytes after them 0. -/
def frameWordBytes (w : Nat) : List Byte :=
  BitVec.ofNat 8 (w / 256) :: BitVec.ofNat 8 w :: List.replicate (longestHeader - 2) 0

/-- The instruction the decoder reads from a word of the opcode table. -/
def decodeTableWord (nbits w : Nat) : Option Instr :=
  if isFrameWord nbits w then
    match decodeFrame (frameWordBytes w) with
    | .ok (i, _) => some i
    | .error _ => none
  else some (decodeCommand (BitVec.ofNat 32 w))

end Sys2Proof
end

