-- ==== Sys2Proof/Machine/State.lean ====
section
/-! DEFINITION. The state of the engine and of its host, the reasons a step can stop, and the state after reset. -/

namespace Sys2Proof.Machine

/-- A buffer: the written bytes by index, indices strictly rising. An index that is not listed is *unwritten* and has no
value (R43). -/
abbrev Memory := List Host.Cell

/-- The two buffers (R41). -/
inductive Buffer where
  | input
  | output
  deriving DecidableEq, Repr

/-- The defined registers of the register map (R23). -/
inductive Reg where
  | cmd | flags | key | keyLen | plenLo | plenHi | inLenLo | inLenHi
  | start | status
  | outLenLo | outLenHi | rHdr | rKey | rPlenLo | rPlenHi | rPoff
  deriving DecidableEq, Repr

/-- The values of STATUS.CODE (R105). Codes 6 to 15 are never produced (R32). -/
inductive StatusCode where
  | ok | truncatedFrame | lengthMismatch | invalidMaskKey | allocationFailure | badCommand
  deriving DecidableEq, Repr

/-- The command registers: written by the host, read by the engine (R25 to R30). -/
structure CommandRegs where
  cmd     : Word
  flags   : Word
  key     : Word
  keyLen  : Word
  plenLo  : Word
  plenHi  : Word
  inLenLo : Word
  inLenHi : Word
  deriving DecidableEq, Repr

/-- The result registers: written by the engine at completion, read by the host (R33 to R37). -/
structure ResultRegs where
  outLenLo : Word
  outLenHi : Word
  rHdr     : Word
  rKey     : Word
  rPlenLo  : Word
  rPlenHi  : Word
  rPoff    : Word
  deriving DecidableEq, Repr

/-- A host operation (R74). The width (in bits) of an access is written down, so that an access that is not admitted
(R49) is one too. -/
inductive HostOp where
  /-- `rd REG`: read the register at an offset. -/
  | rd (width offset : Nat)
  /-- `wr REG, imm32`: write the register at an offset. -/
  | wr (width offset : Nat) (value : Word)
  /-- `rdb`: read a buffer byte. -/
  | rdb (buffer : Buffer) (width index : Nat)
  /-- `wrb`: write a buffer byte. -/
  | wrb (buffer : Buffer) (width index : Nat) (value : Byte)
  /-- `wait`: read STATUS, and again while bit 31 is 1. -/
  | wait
  /-- `copy_out_in`: `rdb OUT, j` then `wrb IN, j` with that byte, for `count` indices from `first`. -/
  | copyOutIn (first count : Nat)
  /-- Reset, however the platform asserts it (R126, R127). -/
  | reset
  deriving DecidableEq, Repr

/-- The two agents (R18). -/
inductive Agent where
  | host
  | engine
  deriving DecidableEq, Repr

/-- A value a read returned to the host. -/
inductive HostValue where
  | word (v : Word)
  | byte (v : Byte)
  deriving DecidableEq, Repr

/-- Reasons the run of the host program is a fault. -/
inductive Fault where
  /-- A host read of a buffer byte not written since reset (R43 a, I11; for IN_BUF log 6). Raised by `rdb` and
  `copy_out_in`, for an OUT_BUF byte only while BUSY = 0: during BUSY its read is a free byte instead (DESIGN CHOICE,
  log 17). Safe: the hardware returns a value the model does not fix. -/
  | unwrittenByteRead
  deriving DecidableEq, Repr

/-- Reasons the model takes no step. -/
inductive Refusal where
  /-- An instruction without a meaning. No arm of `exec` raises it. Safe. -/
  | notModelled (mnemonic : String)
  /-- A host access of a width, offset or index that R49 does not admit (I13). Raised by host accesses. Safe. -/
  | accessNotAdmitted
  /-- A host write to a command register, a buffer, or START with GO = 1 while STATUS.BUSY = 1 (R130, I14). Raised by host
  accesses. Safe. -/
  | writeWhileBusy
  /-- A command that would read an unwritten IN_BUF byte (R43 b, I12). Raised by the START write; by a completion only in
  states no run reaches (log 5). Safe. -/
  | unwrittenInput
  deriving DecidableEq, Repr

/-- The whole state: the engine's registers and buffers, its two parameters, and the host's operations. -/
structure State where
  /-- CMD, FLAGS, KEY, KEY_LEN, PLEN, IN_LEN (R25 to R30). -/
  command : CommandRegs
  /-- OUT_LEN, R_HDR, R_KEY, R_PLEN, R_POFF (R33 to R37). -/
  result : ResultRegs
  /-- STATUS.CODE (R32). -/
  code : StatusCode
  /-- STATUS.BUSY: a command is in flight (R32, R39). -/
  busy : Bool
  /-- IN_BUF (R41). -/
  inBuf : Memory
  /-- OUT_BUF (R41). -/
  outBuf : Memory
  /-- IN_CAP, a parameter no step writes (R9, log 1). -/
  inCap : Nat
  /-- OUT_CAP, a parameter no step writes (R9, log 1). -/
  outCap : Nat
  /-- The model's own (log 4): the host operations not yet performed, in the host's program order (R57 a). -/
  hostQueue : List HostOp
  /-- The model's own (log 4): the values returned to the host, newest first. -/
  hostReads : List HostValue
  /-- The model's own (log 2): who moves in the coming steps, the next one first; when it is used up, the engine while a
  command is in flight and otherwise the host. Any finite list: fairness and no bound (R56, I18). -/
  turns : List Agent
  /-- The model's own (log 12): the number of free values drawn so far. -/
  freeCount : Nat
  deriving DecidableEq, Repr

/-- Every command register after reset (R40). -/
def CommandRegs.zero : CommandRegs :=
  { cmd := 0, flags := 0, key := 0, keyLen := 0, plenLo := 0, plenHi := 0, inLenLo := 0, inLenHi := 0 }

/-- Every result register after reset (R40) and after an error (R113). -/
def ResultRegs.zero : ResultRegs :=
  { outLenLo := 0, outLenHi := 0, rHdr := 0, rKey := 0, rPlenLo := 0, rPlenHi := 0, rPoff := 0 }

/-- The machine right after reset for given parameters: every register 0, no command in flight, every buffer byte
unwritten (R40, R126). The host's fields are empty (log 12). -/
def State.resetWith (inCap outCap : Nat) : State :=
  { command := .zero, result := .zero, code := .ok, busy := false, inBuf := [], outBuf := [],
    inCap := inCap, outCap := outCap, hostQueue := [], hostReads := [], turns := [], freeCount := 0 }

/-- The machine right after reset (R126), with the parameters of log 1. -/
def State.reset : State :=
  State.resetWith Config.inCapAtReset Config.outCapAtReset

end Sys2Proof.Machine
end

