-- ==== Sys2Proof/Machine/Ops.lean ====
section
/-! DEFINITION. The named operations over buffers and registers, and the two ways a command completes: `finishOk` and
`raise` (R112, R113). An error is no trap: nothing is saved, nothing is returned to (R116, R117). -/

namespace Sys2Proof.Machine

/-- What a step over this machine answers. -/
abbrev Outcome := Host.Outcome State Fault Refusal

/-! ## Buffers -/

/-- The byte at an index, if it has been written (R43). -/
def Memory.read (m : Memory) (a : Nat) : Option Byte :=
  m.lookup a

/-- The bytes at indices `a` to `a + n - 1`, if every one has been written: `MemRead(a, n)` (R14). -/
def Memory.readBytes (m : Memory) (a : Nat) : Nat → Option (List Byte)
  | 0 => some []
  | n + 1 =>
    match m.read a with
    | none => none
    | some b => (Memory.readBytes m (a + 1) n).map (b :: ·)

/-- Bytes at consecutive indices from `a`. -/
def Memory.run (a : Nat) : List Byte → Memory
  | [] => []
  | b :: bs => (a, b) :: Memory.run (a + 1) bs

/-- `MemWrite(a, len(v), v)` (R14): the bytes `v` at indices from `a`, every other index as before. -/
def Memory.writeBytes (m : Memory) (a : Nat) (v : List Byte) : Memory :=
  m.filter (fun c => decide (c.1 < a)) ++ Memory.run a v ++ m.filter (fun c => decide (a + v.length ≤ c.1))

/-- One byte written. -/
def Memory.write (m : Memory) (a : Nat) (b : Byte) : Memory :=
  m.writeBytes a [b]

/-- The canonical form: indices strictly rising. -/
abbrev Memory.wf (m : Memory) : Prop :=
  m.Pairwise (fun c d => c.1 < d.1)

/-- Every written index is below a capacity (R41). -/
abbrev Memory.below (m : Memory) (cap : Nat) : Prop :=
  ∀ c ∈ m, c.1 < cap

/-- `s[a..b)` (R13). -/
def slice (s : List Byte) (a b : Nat) : List Byte :=
  (s.take b).drop a

/-- The contents of one of the two buffers (R41). -/
def State.buffer (s : State) : Buffer → Memory
  | .input => s.inBuf
  | .output => s.outBuf

/-- The capacity of one of the two buffers (R41). -/
def State.capacity (s : State) : Buffer → Nat
  | .input => s.inCap
  | .output => s.outCap

/-- One byte of a buffer written; the other buffer is disjoint storage (R42). -/
def State.writeBuffer (s : State) (buffer : Buffer) (a : Nat) (b : Byte) : State :=
  match buffer with
  | .input => { s with inBuf := s.inBuf.write a b }
  | .output => { s with outBuf := s.outBuf.write a b }

/-! ## Registers -/

/-- The low 32 bits of a 64-bit value, held in the `_LO` register (R48). -/
def lowWord (v : DWord) : Word :=
  v.extractLsb' 0 32

/-- The high 32 bits of a 64-bit value, held in the `_HI` register (R48). -/
def highWord (v : DWord) : Word :=
  v.extractLsb' 32 32

/-- `HI << 32 | LO` (R63). -/
def joinWords (hi lo : Word) : DWord :=
  hi ++ lo

/-- The offset of a defined register (R23). -/
def Reg.offset : Reg → Nat
  | .cmd => 0x00
  | .flags => 0x04
  | .key => 0x08
  | .keyLen => 0x0C
  | .plenLo => 0x10
  | .plenHi => 0x14
  | .inLenLo => 0x18
  | .inLenHi => 0x1C
  | .start => 0x20
  | .status => 0x24
  | .outLenLo => 0x28
  | .outLenHi => 0x2C
  | .rHdr => 0x30
  | .rKey => 0x34
  | .rPlenLo => 0x38
  | .rPlenHi => 0x3C
  | .rPoff => 0x40

/-- The defined registers, in the order of the register map (R23). -/
def Reg.all : List Reg :=
  [.cmd, .flags, .key, .keyLen, .plenLo, .plenHi, .inLenLo, .inLenHi, .start, .status,
   .outLenLo, .outLenHi, .rHdr, .rKey, .rPlenLo, .rPlenHi, .rPoff]

/-- The register at an offset; none at a reserved offset (R24). -/
def Reg.atOffset (offset : Nat) : Option Reg :=
  Reg.all.find? (fun r => r.offset == offset)

/-- The bits of a register that the host can write: the named fields of the command registers (R23 to R30). A read-only
register has none; START stores nothing (R24, R31). -/
def Reg.writeMask : Reg → Word
  | .cmd => 0x00000107
  | .flags => 0x000080FF
  | .key => 0xFFFFFFFF
  | .keyLen => 0x0000000F
  | .plenLo => 0xFFFFFFFF
  | .plenHi => 0xFFFFFFFF
  | .inLenLo => 0xFFFFFFFF
  | .inLenHi => 0xFFFFFFFF
  | .start => 0
  | .status => 0
  | .outLenLo => 0
  | .outLenHi => 0
  | .rHdr => 0
  | .rKey => 0
  | .rPlenLo => 0
  | .rPlenHi => 0
  | .rPoff => 0

/-- Whether a register is a command register: written by the host, read by the engine (R25 to R30). -/
def Reg.isCommand (r : Reg) : Bool :=
  r.writeMask != 0

/-- A command register written whole: reserved bits ignore the write and stay 0 (R24). Other registers ignore it. -/
def CommandRegs.set (c : CommandRegs) (r : Reg) (v : Word) : CommandRegs :=
  match r with
  | .cmd => { c with cmd := v &&& Reg.writeMask .cmd }
  | .flags => { c with flags := v &&& Reg.writeMask .flags }
  | .key => { c with key := v &&& Reg.writeMask .key }
  | .keyLen => { c with keyLen := v &&& Reg.writeMask .keyLen }
  | .plenLo => { c with plenLo := v &&& Reg.writeMask .plenLo }
  | .plenHi => { c with plenHi := v &&& Reg.writeMask .plenHi }
  | .inLenLo => { c with inLenLo := v &&& Reg.writeMask .inLenLo }
  | .inLenHi => { c with inLenHi := v &&& Reg.writeMask .inLenHi }
  | .start => c
  | .status => c
  | .outLenLo => c
  | .outLenHi => c
  | .rHdr => c
  | .rKey => c
  | .rPlenLo => c
  | .rPlenHi => c
  | .rPoff => c

/-! ## Completion -/

/-- `finish_ok` (R113): STATUS.CODE = OK, OUT_LEN = the number of bytes written, the result registers (0 where the command
does not produce one), the MemWrite of the command, and BUSY from 1 to 0, all at once (R54, R55). -/
def finishOk (s : State) (out : List Byte) (rHdr : Word := 0) (rKey : Word := 0) (rPlen : DWord := 0) (rPoff : Word := 0) :
    State :=
  { s with
    code := .ok
    busy := false
    result :=
      { outLenLo := lowWord (BitVec.ofNat 64 out.length), outLenHi := highWord (BitVec.ofNat 64 out.length),
        rHdr := rHdr, rKey := rKey, rPlenLo := lowWord rPlen, rPlenHi := highWord rPlen, rPoff := rPoff }
    outBuf := s.outBuf.writeBytes 0 out }

/-- `raise <Kind>()` (R112, R113): the code, every result register 0, no OUT_BUF byte written, BUSY from 1 to 0. -/
def raise (s : State) (c : StatusCode) : State :=
  { s with code := c, busy := false, result := .zero }

/-- A command that reads `IN_BUF[0..n)`. A completion that would read an unwritten byte has no meaning in the model
(R43 b); the START write refuses it first, so no run comes here (log 5). -/
def withInput (s : State) (n : Nat) (k : List Byte → State) : Outcome :=
  match s.inBuf.readBytes 0 n with
  | none => .refused .unwrittenInput
  | some data => .next (k data)

end Sys2Proof.Machine
end

