-- ==== Sys2Proof/Machine/Operands.lean ====
section
/-! DEFINITION. The operands of the commands (R63): fields of the command registers, and which commands read IN_BUF. -/

namespace Sys2Proof.Machine

/-- IN_LEN = `x[IN_LEN_HI] << 32 | x[IN_LEN_LO]` (R30). -/
def State.inLen (s : State) : DWord :=
  joinWords s.command.inLenHi s.command.inLenLo

/-- PLEN = `x[PLEN_HI] << 32 | x[PLEN_LO]` (R29). -/
def State.plen (s : State) : DWord :=
  joinWords s.command.plenHi s.command.plenLo

/-- OUT_LEN = `x[OUT_LEN_HI] << 32 | x[OUT_LEN_LO]` (R33). -/
def State.outLen (s : State) : DWord :=
  joinWords s.result.outLenHi s.result.outLenLo

/-- R_PLEN = `x[R_PLEN_HI] << 32 | x[R_PLEN_LO]` (R36). -/
def State.rPlen (s : State) : DWord :=
  joinWords s.result.rPlenHi s.result.rPlenLo

/-- The four key bytes, `key[0] = KEY[31:24]` first (R27, R47). -/
def State.keyBytes (s : State) : List Byte :=
  be32 s.command.key

/-- KEY_LEN.LEN, bits 3:0 (R28). -/
def State.keyLength (s : State) : Nat :=
  (s.command.keyLen.extractLsb' 0 4).toNat

/-- FLAGS.FIN, RSV1, RSV2, RSV3 and OPCODE (R26). -/
def State.frameFlags (s : State) : FrameFlags :=
  { fin := s.command.flags.getLsbD 7, rsv1 := s.command.flags.getLsbD 6, rsv2 := s.command.flags.getLsbD 5,
    rsv3 := s.command.flags.getLsbD 4, opcode := s.command.flags.extractLsb' 0 4 }

/-- FLAGS.MASKED, bit 15, read by HDR_ENCODE only (R26, R84). -/
def State.maskedFlag (s : State) : Bool :=
  s.command.flags.getLsbD 15

/-- The command that CMD selects (R61): what a START begins and a completion runs. -/
def State.selected (s : State) : Instr :=
  decodeCommand s.command.cmd

/-- Whether the START of an instruction needs `IN_BUF[0..IN_LEN)` (R43 b, R63). -/
def readsInput : Instr → Bool
  | .mask => true
  | .hdrEncode => false
  | .hdrDecode => true
  | .build => true
  | .parse _ => true
  | .reservedOp0 => false
  | .reservedOp6 => false
  | .reservedOp7 => false
  | .frameLen7 _ _ _ => false
  | .frameLen16 _ _ _ => false
  | .frameLen64 _ _ _ => false

/-- Every byte of `IN_BUF[0..min(IN_LEN, IN_CAP))` has been written, or the selected command reads none of them (R43 b). -/
def State.inputReady (s : State) : Bool :=
  !readsInput s.selected || (s.inBuf.readBytes 0 (min s.inLen.toNat s.inCap)).isSome

end Sys2Proof.Machine
end

