-- ==== Sys2Proof/Machine/Flags.lean ====
section
/-! DEFINITION. The packed words software reads: STATUS and R_HDR, and the value of every register. -/

namespace Sys2Proof.Machine

/-- The number of a status code (R105). -/
def StatusCode.bits : StatusCode → BitVec 4
  | .ok => 0
  | .truncatedFrame => 1
  | .lengthMismatch => 2
  | .invalidMaskKey => 3
  | .allocationFailure => 4
  | .badCommand => 5

/-- STATUS: CODE in bits 3:0, BUSY in bit 31, the rest 0 (R32). -/
def State.statusWord (s : State) : Word :=
  BitVec.ofBool s.busy ++ 0#27 ++ s.code.bits

/-- R_HDR of a decoded header: `byte1 << 8 | byte0`, bits 31:16 0 (R23, R34). -/
def headerWord (flags : FrameFlags) (masked : Bool) (marker : BitVec 7) : Word :=
  0#16 ++ frameByte1 masked marker ++ flags.byte0

/-- R_KEY of four key bytes, the first in bits 31:24 (R35, R47). -/
def keyWord (key : List Byte) : Word :=
  BitVec.ofNat 32 (beval key)

/-- The value a read of a defined register returns; START reads as 0 (R23, R31). -/
def State.register (s : State) : Reg → Word
  | .cmd => s.command.cmd
  | .flags => s.command.flags
  | .key => s.command.key
  | .keyLen => s.command.keyLen
  | .plenLo => s.command.plenLo
  | .plenHi => s.command.plenHi
  | .inLenLo => s.command.inLenLo
  | .inLenHi => s.command.inLenHi
  | .start => 0
  | .status => s.statusWord
  | .outLenLo => s.result.outLenLo
  | .outLenHi => s.result.outLenHi
  | .rHdr => s.result.rHdr
  | .rKey => s.result.rKey
  | .rPlenLo => s.result.rPlenLo
  | .rPlenHi => s.result.rPlenHi
  | .rPoff => s.result.rPoff

/-- The value a read at an offset of the register space returns: 0 at a reserved offset (R24). -/
def State.readOffset (s : State) (offset : Nat) : Word :=
  match Reg.atOffset offset with
  | none => 0
  | some r => s.register r

end Sys2Proof.Machine
end

