-- ==== Sys2Proof/Machine/HostAccess.lean ====
section
/-! DEFINITION. The host's side (R18, R49, R50, R54, R57, R74, R130, R131): what each host operation does, one at a time, in
the host's program order. -/

namespace Sys2Proof.Machine

/-! ## Accesses -/

/-- A register access is 32 bits wide at a multiple of 4 up to 0xFC (R49). -/
def registerAccessAdmitted (width offset : Nat) : Bool :=
  width == 32 && offset % 4 == 0 && decide (offset ≤ 0xFF)

/-- A buffer access is 8 bits wide at an index below the capacity (R49). -/
def bufferAccessAdmitted (s : State) (buffer : Buffer) (width index : Nat) : Bool :=
  width == 8 && decide (index < s.capacity buffer)

/-- A value returned to the host. -/
def State.recordRead (s : State) (v : HostValue) : State :=
  { s with hostReads := v :: s.hostReads }

/-- `rd REG` (R74): returns the register's value, with no side effect (R50), also during BUSY (R131). -/
def hostReadReg (width offset : Nat) (s : State) : Outcome :=
  if registerAccessAdmitted width offset then .next (s.recordRead (.word (s.readOffset offset)))
  else .refused .accessNotAdmitted

/-- START with GO = 1 and BUSY = 0 (R54): BUSY becomes 1 and nothing else changes. Refused when the command would read an
unwritten byte (R43 b). -/
def startCommand (s : State) : Outcome :=
  if s.inputReady then .next { s with busy := true } else .refused .unwrittenInput

/-- A write to a defined register: a command register or START with GO = 1 is a host hazard during BUSY (R130); START with
GO = 0 has no effect (R31); a read-only register ignores it (R24). -/
def writeRegister (r : Reg) (v : Word) (s : State) : Outcome :=
  if r == .start then
    if v.getLsbD 0 then
      if s.busy then .refused .writeWhileBusy else startCommand s
    else .next s
  else if r.isCommand then
    if s.busy then .refused .writeWhileBusy else .next { s with command := s.command.set r v }
  else .next s

/-- `wr REG, imm32` (R74); a reserved offset ignores it (R24). -/
def hostWriteReg (width offset : Nat) (v : Word) (s : State) : Outcome :=
  if registerAccessAdmitted width offset then
    match Reg.atOffset offset with
    | none => .next s
    | some r => writeRegister r v s
  else .refused .accessNotAdmitted

/-- Whether a read of a buffer's byte returns a free value: OUT_BUF while a command is in flight (R131). -/
def State.freeRead (s : State) (buffer : Buffer) : Bool :=
  s.busy && buffer == .output

/-- The byte a host read of a buffer returns: a free byte for OUT_BUF during BUSY (R131, log 3), none for an unwritten byte
(R43). Where both rules speak, for an OUT_BUF byte that is unwritten while BUSY = 1, the spec does not say which goes first;
DESIGN CHOICE (log 17): the free byte of R131, and no fault. A read of IN_BUF during BUSY returns the byte, which nothing changes then (log 7). -/
def State.bufferByte (s : State) (buffer : Buffer) (index : Nat) : Option Byte :=
  if s.freeRead buffer then some (Config.freeByte s.freeCount) else (s.buffer buffer).read index

/-- The state after a buffer read: a draw of a free byte is counted. -/
def State.countDraw (s : State) (buffer : Buffer) : State :=
  if s.freeRead buffer then { s with freeCount := s.freeCount + 1 } else s

/-- `rdb` (R74): a read of an unwritten byte is a fault (R43 a, log 6). -/
def hostReadByte (buffer : Buffer) (width index : Nat) (s : State) : Outcome :=
  if bufferAccessAdmitted s buffer width index then
    match s.bufferByte buffer index with
    | none => .fault .unwrittenByteRead
    | some b => .next ((s.countDraw buffer).recordRead (.byte b))
  else .refused .accessNotAdmitted

/-- `wrb` (R74): a host hazard during BUSY for either buffer (R130). -/
def hostWriteByte (buffer : Buffer) (width index : Nat) (v : Byte) (s : State) : Outcome :=
  if bufferAccessAdmitted s buffer width index then
    if s.busy then .refused .writeWhileBusy else .next (s.writeBuffer buffer index v)
  else .refused .accessNotAdmitted

/-! ## The other operations -/

/-- `wait` (R74): one read of STATUS; while it returns BUSY = 1 the host goes back to it. -/
def hostWait (s : State) : Outcome :=
  .next { s.recordRead (.word s.statusWord) with hostQueue := if s.busy then .wait :: s.hostQueue else s.hostQueue }

/-- `copy_out_in` (R74) from index `first` on: `rdb OUT, first`, with `wrb IN, first, <that byte>` and the rest of the copy
next in the host's program. -/
def hostCopy (first : Nat) (count : Nat) (s : State) : Outcome :=
  match count with
  | 0 => .next s
  | left + 1 =>
    if bufferAccessAdmitted s .output 8 first then
      match s.bufferByte .output first with
      | none => .fault .unwrittenByteRead
      | some b =>
        .next { (s.countDraw .output).recordRead (.byte b) with
          hostQueue := .wrb .input 8 first b :: .copyOutIn (first + 1) left :: s.hostQueue }
    else .refused .accessNotAdmitted

/-- Reset (R126, R127): every register 0, every buffer byte unwritten, a command in flight abandoned. The parameters, the
host's own fields and the turns are no part of it (log 13). -/
def State.afterReset (s : State) : State :=
  { State.resetWith s.inCap s.outCap with
    hostQueue := s.hostQueue, hostReads := s.hostReads, turns := s.turns, freeCount := s.freeCount }

/-- One host operation. -/
def hostPerform (op : HostOp) (s : State) : Outcome :=
  match op with
  | .rd width offset => hostReadReg width offset s
  | .wr width offset v => hostWriteReg width offset v s
  | .rdb buffer width index => hostReadByte buffer width index s
  | .wrb buffer width index v => hostWriteByte buffer width index v s
  | .wait => hostWait s
  | .copyOutIn first count => hostCopy first count s
  | .reset => .next s.afterReset

/-- The host's turn: its next operation, in its program order (R57 a). With none left it does nothing. -/
def hostTurn (s : State) : Outcome :=
  match s.hostQueue with
  | [] => .next s
  | op :: rest => hostPerform op { s with hostQueue := rest }

/-! ## Host notation: the pseudo-operations of R74 that are lists of accesses -/

/-- `wr REG, imm32`. -/
def hostWr (r : Reg) (v : Word) : HostOp :=
  .wr 32 r.offset v

/-- `rd REG`. -/
def hostRd (r : Reg) : HostOp :=
  .rd 32 r.offset

/-- `wrbs IN, i, [b0, …]`. -/
def hostWrbs (first : Nat) : List Byte → List HostOp
  | [] => []
  | b :: bs => .wrb .input 8 first b :: hostWrbs (first + 1) bs

/-- `wr64 IN_LEN, imm64`. -/
def hostWr64InLen (v : DWord) : List HostOp :=
  [hostWr .inLenLo (lowWord v), hostWr .inLenHi (highWord v)]

/-- `wr64 PLEN, imm64`. -/
def hostWr64Plen (v : DWord) : List HostOp :=
  [hostWr .plenLo (lowWord v), hostWr .plenHi (highWord v)]

/-- `cmd OP` and `cmd OP, au`. -/
def hostCmd (op : BitVec 3) (autoUnmask : Bool) : HostOp :=
  hostWr .cmd (commandWord op autoUnmask)

/-- `start`. -/
def hostStart : HostOp :=
  hostWr .start 1

end Sys2Proof.Machine
end

