-- ==== Sys2Proof/Machine/Fetch.lean ====
section
/-! DEFINITION. Placing an instruction where the engine takes its next one (log 10). The engine fetches at no program counter
(R21): a command is what CMD selects when a command is in flight, and a wire row is the header of the frame in IN_BUF that
HDR_DECODE decodes. -/

namespace Sys2Proof.Machine

/-- The command word in CMD (its reserved bits ignore the write, R24), the command in flight, the engine to move. -/
def State.withCommand (s : State) (w : Word) : State :=
  { s with command := s.command.set .cmd w, busy := true, turns := [] }

/-- A frame's bytes in IN_BUF from index 0, IN_LEN their number, HDR_DECODE in flight. A smaller IN_BUF is taken as just
large enough for the frame. -/
def State.withFrame (s : State) (bytes : List Byte) : State :=
  State.withCommand
    { s with
      inBuf := s.inBuf.writeBytes 0 bytes
      inCap := max s.inCap bytes.length
      command := (s.command.set .inLenLo (lowWord (BitVec.ofNat 64 bytes.length))).set .inLenHi
        (highWord (BitVec.ofNat 64 bytes.length)) }
    (commandWord 3 false)

/-- A word of the opcode table placed for the next step. -/
def placeTableWord (s : State) (nbits w : Nat) : State :=
  if isFrameWord nbits w then s.withFrame (frameWordBytes w) else s.withCommand (BitVec.ofNat 32 w)

end Sys2Proof.Machine
end

