-- ==== Sys2Proof/Machine/FrameRows.lean ====
section
/-! DEFINITION. The wire rows FRAME_LEN7, FRAME_LEN16 and FRAME_LEN64 (R66, R67). A wire row has no command code; the engine
meets it as the header of a frame. Its meaning is the header codec's decode result for a header of that class: R_HDR, R_KEY,
R_PLEN and R_POFF (R86 to R89), no OUT_BUF byte (DEDUCED, log 8). -/

namespace Sys2Proof.Machine

/-- The completion of a header whose class has `payloadLength` and header length `hl`: the key, 4 bytes, stands at `hl` when
there is one, and R_KEY is 0 when there is none (R67, R88). -/
def finishFrame (s : State) (flags : FrameFlags) (marker : BitVec 7) (key : Option Word) (payloadLength : DWord) (hl : Nat) :
    State :=
  finishOk s [] (headerWord flags key.isSome marker) (key.getD 0) payloadLength
    (BitVec.ofNat 32 (if key.isSome then hl + 4 else hl))

/-- FRAME_LEN7: `payload_length = length_marker`, HL = 2 (R66, R67). -/
def execFrameLen7 (flags : FrameFlags) (marker : BitVec 7) (key : Option Word) (s : State) : Outcome :=
  .next (finishFrame s flags marker key (marker.setWidth 64) 2)

/-- FRAME_LEN16: marker 126, `payload_length` the 16-bit extended length, HL = 4 (R66, R67). -/
def execFrameLen16 (flags : FrameFlags) (length : BitVec 16) (key : Option Word) (s : State) : Outcome :=
  .next (finishFrame s flags 126 key (length.setWidth 64) 4)

/-- FRAME_LEN64: marker 127, `payload_length` the 64-bit extended length, HL = 10 (R66, R67). -/
def execFrameLen64 (flags : FrameFlags) (length : DWord) (key : Option Word) (s : State) : Outcome :=
  .next (finishFrame s flags 127 key length 10)

end Sys2Proof.Machine
end

