-- ==== Sys2Proof/Machine/Masking.lean ====
section
/-! DEFINITION. The Masking Engine: the masking function (R75), its chunked form (R76), and the command MASK (R79). -/

namespace Sys2Proof.Machine

/-- The masking of bytes that stand at indices `i`, `i + 1`, … of the data (R75). -/
def maskFrom (key : List Byte) (i : Nat) : List Byte → List Byte
  | [] => []
  | b :: data => (b ^^^ key.getD (i % 4) 0) :: maskFrom key (i + 1) data

/-- `maskf(data, key)`: `out[i] = data[i] XOR key[i mod 4]` (R75). -/
def maskf (data key : List Byte) : List Byte :=
  maskFrom key 0 data

/-- `K_W`: the key repeated to the chunk width, `K_W[j] = key[j mod 4]` (R76). -/
def replicatedKey (key : List Byte) (width : Nat) : List Byte :=
  (List.range width).map (fun j => key.getD (j % 4) 0)

/-- `count` whole chunks, each XORed lane by lane with the replicated key (R76, R77). -/
def maskChunks (key : List Byte) (width : Nat) : Nat → List Byte → List Byte
  | 0, _ => []
  | count + 1, data =>
    List.zipWith (· ^^^ ·) (data.take width) (replicatedKey key width) ++ maskChunks key width count (data.drop width)

/-- The vectorized datapath of R76: whole chunks, then the trailing `n mod W` bytes one at a time. No command uses it:
R76 says that it equals `maskf`. -/
def maskWide (width : Nat) (data key : List Byte) : List Byte :=
  let whole := data.length / width
  maskChunks key width whole data ++ maskFrom key (whole * width) (data.drop (whole * width))

/-- MASK (R79, R80, R81). -/
def execMask (s : State) : Outcome :=
  let n := s.inLen.toNat
  if n > s.inCap then .next (raise s .badCommand)
  else if s.keyLength ≠ 4 then .next (raise s .invalidMaskKey)
  else if n > s.outCap then .next (raise s .allocationFailure)
  else withInput s n fun data => finishOk s (maskf data s.keyBytes)

end Sys2Proof.Machine
end

