-- ==== Sys2Proof/Machine/Header.lean ====
section
/-! DEFINITION. The Frame Header Codec: `hdr_encode` (R82), `hdr_decode` (R86), and the commands HDR_ENCODE (R85) and
HDR_DECODE (R89). -/

namespace Sys2Proof.Machine

/-- `marker(p)` (R68). -/
def lengthMarker (p : DWord) : BitVec 7 :=
  if p.toNat ≤ 125 then p.setWidth 7
  else if p.toNat ≤ 65535 then 126
  else 127

/-- `ext(p)` (R68). -/
def lengthExt (p : DWord) : List Byte :=
  if p.toNat ≤ 125 then []
  else if p.toNat ≤ 65535 then be16 (p.setWidth 16)
  else be64 p

/-- `HL(p)`: 2, 4 or 10 (R68). -/
def headerLength (p : DWord) : Nat :=
  2 + (lengthExt p).length

/-- `hdr_encode` (R82): byte 0, byte 1 and the extension; no key byte. -/
def hdrEncode (flags : FrameFlags) (masked : Bool) (p : DWord) : List Byte :=
  flags.byte0 :: frameByte1 masked (lengthMarker p) :: lengthExt p

/-- What `hdr_decode` returns (R86). -/
structure Header where
  flags  : FrameFlags
  masked : Bool
  marker : BitVec 7
  plen   : DWord
  key    : List Byte
  poff   : Nat
  deriving DecidableEq, Repr

/-- The declared payload length and the header length, unless the extended field is not wholly present (R66, R87 b). -/
def declaredLength (buf : List Byte) (marker : BitVec 7) : Option (DWord × Nat) :=
  if marker.toNat ≤ 125 then some (marker.setWidth 64, 2)
  else if marker.toNat = 126 then
    if buf.length < 4 then none else some (BitVec.ofNat 64 (beval (slice buf 2 4)), 4)
  else
    if buf.length < 10 then none else some (BitVec.ofNat 64 (beval (slice buf 2 10)), 10)

/-- `hdr_decode` (R86); `none` is Truncated, in the three cases of R87. An unmasked frame has the key `zeros(4)` (R88). -/
def hdrDecode (buf : List Byte) : Option Header :=
  if buf.length < 2 then none
  else
    let flags := FrameFlags.ofByte0 (buf.getD 0 0)
    let masked := (buf.getD 1 0).getLsbD 7
    let marker := (buf.getD 1 0).extractLsb' 0 7
    match declaredLength buf marker with
    | none => none
    | some (plen, off) =>
      if masked then
        if buf.length < off + 4 then none
        else some { flags, masked, marker, plen, key := slice buf off (off + 4), poff := off + 4 }
      else some { flags, masked, marker, plen, key := [0, 0, 0, 0], poff := off }

/-- The success of the decode side: R_HDR, R_KEY, R_PLEN and R_POFF from the header, OUT_BUF from `out` (R89, R102). -/
def finishDecoded (s : State) (out : List Byte) (h : Header) : State :=
  finishOk s out (headerWord h.flags h.masked h.marker) (keyWord h.key) h.plen (BitVec.ofNat 32 h.poff)

/-- HDR_ENCODE (R85): always OK, since the header always fits (R9). -/
def execHdrEncode (s : State) : Outcome :=
  .next (finishOk s (hdrEncode s.frameFlags s.maskedFlag s.plen))

/-- HDR_DECODE (R89): reads at most the first 14 bytes, with no total-length check (R90). -/
def execHdrDecode (s : State) : Outcome :=
  let n := s.inLen.toNat
  if n > s.inCap then .next (raise s .badCommand)
  else withInput s (min n 14) fun data =>
    match hdrDecode data with
    | none => raise s .truncatedFrame
    | some h => finishDecoded s [] h

end Sys2Proof.Machine
end

