-- ==== Sys2Proof/Machine/Builder.lean ====
section
/-! DEFINITION. The Frame Builder: the command BUILD (R92 to R95). -/

namespace Sys2Proof.Machine

/-- The frame of a payload: header, key verbatim and masked payload, or header and payload copied (R94, R95). -/
def buildFrame (flags : FrameFlags) (masked : Bool) (key payload : List Byte) (n : DWord) : List Byte :=
  if masked then hdrEncode flags masked n ++ key ++ maskf payload key
  else hdrEncode flags masked n ++ payload

/-- `total = HL(n) + 4 * masked + n`, exact (R93). -/
def frameTotal (masked : Bool) (n : DWord) : Nat :=
  headerLength n + (if masked then 4 else 0) + n.toNat

/-- BUILD (R94). FLAGS.MASKED is not read: masked is KEY_LEN.LEN = 4 (R92). -/
def execBuild (s : State) : Outcome :=
  let n := s.inLen
  let masked := s.keyLength == 4
  if n.toNat > s.inCap then .next (raise s .badCommand)
  else if s.keyLength ≠ 0 ∧ s.keyLength ≠ 4 then .next (raise s .invalidMaskKey)
  else if frameTotal masked n > s.outCap then .next (raise s .allocationFailure)
  else withInput s n.toNat fun payload =>
    finishOk s (buildFrame s.frameFlags masked s.keyBytes payload n)

end Sys2Proof.Machine
end

