-- ==== Sys2Proof/Machine/Parser.lean ====
section
/-! DEFINITION. The Frame Parser: the command PARSE (R97 to R103). -/

namespace Sys2Proof.Machine

/-- The payload PARSE returns: unmasked if the frame is masked and AUTO_UNMASK = 1, else as received (R101). -/
def parsedPayload (autoUnmask : Bool) (h : Header) (data : List Byte) : List Byte :=
  let payload := slice data h.poff data.length
  if h.masked && autoUnmask then maskf payload h.key else payload

/-- PARSE of a whole input (R102): truncation, exact length (R98, R99), allocation (R100), success. -/
def parseInput (s : State) (autoUnmask : Bool) (data : List Byte) : State :=
  match hdrDecode data with
  | none => raise s .truncatedFrame
  | some h =>
    if h.poff + h.plen.toNat ≠ data.length then raise s .lengthMismatch
    else if h.plen.toNat > s.outCap then raise s .allocationFailure
    else finishDecoded s (parsedPayload autoUnmask h data) h

/-- PARSE (R102). -/
def execParse (autoUnmask : Bool) (s : State) : Outcome :=
  let n := s.inLen.toNat
  if n > s.inCap then .next (raise s .badCommand)
  else withInput s n (parseInput s autoUnmask)

end Sys2Proof.Machine
end

