-- ==== Sys2Proof/Machine/Reserved.lean ====
section
/-! DEFINITION. The reserved command codes: each reads no other register and no buffer byte and completes with
BAD_COMMAND (R62, R110). -/

namespace Sys2Proof.Machine

/-- OP 0 (R62). -/
def execReservedOp0 (s : State) : Outcome :=
  .next (raise s .badCommand)

/-- OP 6 (R62). -/
def execReservedOp6 (s : State) : Outcome :=
  .next (raise s .badCommand)

/-- OP 7 (R62). -/
def execReservedOp7 (s : State) : Outcome :=
  .next (raise s .badCommand)

end Sys2Proof.Machine
end

