-- ==== Sys2Proof/Machine/Dispatch.lean ====
section
/-! DEFINITION. One arm for each instruction. -/

namespace Sys2Proof.Machine

/-- What an instruction does: the completion of the command (R54). -/
def exec (i : Instr) (s : State) : Host.Outcome State Fault Refusal :=
  match i with
  | .mask => Sys2Proof.Machine.execMask s
  | .hdrEncode => Sys2Proof.Machine.execHdrEncode s
  | .hdrDecode => Sys2Proof.Machine.execHdrDecode s
  | .build => Sys2Proof.Machine.execBuild s
  | .parse autoUnmask => Sys2Proof.Machine.execParse autoUnmask s
  | .reservedOp0 => Sys2Proof.Machine.execReservedOp0 s
  | .reservedOp6 => Sys2Proof.Machine.execReservedOp6 s
  | .reservedOp7 => Sys2Proof.Machine.execReservedOp7 s
  | .frameLen7 flags marker key => Sys2Proof.Machine.execFrameLen7 flags marker key s
  | .frameLen16 flags length key => Sys2Proof.Machine.execFrameLen16 flags length key s
  | .frameLen64 flags length key => Sys2Proof.Machine.execFrameLen64 flags length key s

end Sys2Proof.Machine
end

