-- ==== Sys2Proof/Machine/Schedule.lean ====
section
/-! DEFINITION. Whose turn it is, and the engine's turn (R18, R54, R56, R57). -/

namespace Sys2Proof.Machine

/-- Who moves next (log 2): the next of the turns; with none left, the engine if a command is in flight, so that its
completion is not put off for ever (R56), and otherwise the host. -/
def State.turn (s : State) : Agent :=
  match s.turns with
  | agent :: _ => agent
  | [] => if s.busy then .engine else .host

/-- The state with the turn taken. -/
def State.afterTurn (s : State) : State :=
  { s with turns := s.turns.tail }

/-- The engine's turn: the completion of the command in flight (R54). With none in flight it is idle and keeps everything
(R125). -/
def engineTurn (s : State) : Outcome :=
  if s.busy then exec s.selected s else .next s

end Sys2Proof.Machine
end

