-- ==== Sys2Proof/Machine/Step.lean ====
section
/-! DEFINITION. One step of the whole system: the engine's turn or the host's (R18, R54, R57). -/

namespace Sys2Proof.Machine

/-- The move of the agent whose turn it is. -/
def step (s : State) : Host.Outcome State Fault Refusal :=
  match s.turn with
  | .engine => engineTurn s.afterTurn
  | .host => hostTurn s.afterTurn

/-- The state with a word of the opcode table placed so that the next step runs it (log 10). -/
def State.withFetchWord (s : State) (nbits w : Nat) : State :=
  placeTableWord s nbits w

end Sys2Proof.Machine
end

