-- ==== Sys2Proof/Safety.lean ====
section
/-! DEFINITION. The invariant of the machine and the words the statements are written in. -/

namespace Sys2Proof.Machine

/-! ## The invariant -/

/-- The parameters are legal (R9). -/
abbrev State.CapsLegal (s : State) : Prop :=
  s.inCap ≤ Config.maxCap ∧ Config.minOutCap ≤ s.outCap ∧ s.outCap ≤ Config.maxCap

/-- Both buffers are in canonical form and hold no index at or above their capacity (R41). -/
abbrev State.BuffersLegal (s : State) : Prop :=
  s.inBuf.wf ∧ s.outBuf.wf ∧ s.inBuf.below s.inCap ∧ s.outBuf.below s.outCap

/-- The bits of each register that the register map names (R23); every other bit is reserved (R24). -/
def Reg.namedBits : Reg → Word
  | .cmd => 0x00000107
  | .flags => 0x000080FF
  | .key => 0xFFFFFFFF
  | .keyLen => 0x0000000F
  | .plenLo => 0xFFFFFFFF
  | .plenHi => 0xFFFFFFFF
  | .inLenLo => 0xFFFFFFFF
  | .inLenHi => 0xFFFFFFFF
  | .start => 0x00000001
  | .status => 0x8000000F
  | .outLenLo => 0xFFFFFFFF
  | .outLenHi => 0xFFFFFFFF
  | .rHdr => 0x0000FFFF
  | .rKey => 0xFFFFFFFF
  | .rPlenLo => 0xFFFFFFFF
  | .rPlenHi => 0xFFFFFFFF
  | .rPoff => 0xFFFFFFFF

/-- Every reserved bit of the stored registers is 0 (R24), and R_POFF holds one of its values (R37). -/
abbrev State.ReservedZero (s : State) : Prop :=
  s.command.cmd &&& ~~~Reg.cmd.namedBits = 0 ∧ s.command.flags &&& ~~~Reg.flags.namedBits = 0 ∧
    s.command.keyLen &&& ~~~Reg.keyLen.namedBits = 0 ∧ s.result.rHdr &&& ~~~Reg.rHdr.namedBits = 0 ∧
    s.result.rPoff.toNat ∈ [0, 2, 4, 6, 8, 10, 14]

/-- The invariant: legal parameters, legal buffers, reserved bits 0, and the input of a command in flight written (R43 b,
R130). -/
abbrev State.Inv (s : State) : Prop :=
  s.CapsLegal ∧ s.BuffersLegal ∧ s.ReservedZero ∧ (s.busy = true → s.inputReady = true)

/-! ## What the statements say -/

/-- What a completion leaves unchanged: the command registers, IN_BUF, the parameters (R42) and the host's own fields. -/
def KeepsInputs (s t : State) : Prop :=
  t.command = s.command ∧ t.inBuf = s.inBuf ∧ t.inCap = s.inCap ∧ t.outCap = s.outCap ∧
    t.hostQueue = s.hostQueue ∧ t.hostReads = s.hostReads ∧ t.turns = s.turns ∧ t.freeCount = s.freeCount

/-- The instruction completes with the error `c` and the error write-back: every result register 0, no OUT_BUF byte
written, nothing else changed (R112, R113). -/
def CompletesWithError (i : Instr) (s : State) (c : StatusCode) : Prop :=
  ∃ t, exec i s = .next t ∧ t.code = c ∧ t.busy = false ∧ t.result = .zero ∧
    (∀ a, t.outBuf.read a = s.outBuf.read a) ∧ KeepsInputs s t

/-- A completion with OK: BUSY is 0 and the inputs are as they were (R42, R113). -/
def CompletedOk (s t : State) : Prop :=
  t.code = .ok ∧ t.busy = false ∧ KeepsInputs s t

/-- A completion with OK that produces no decode result: R_HDR, R_KEY, R_PLEN and R_POFF are written 0 (R113). -/
def CompletedOkPlain (s t : State) : Prop :=
  CompletedOk s t ∧ t.result.rHdr = 0 ∧ t.result.rKey = 0 ∧ t.rPlen = 0 ∧ t.result.rPoff = 0

/-- The host's operation `op` is the next step: it is the host's turn (log 2) and `op` is first in its program (log 4). -/
def State.HostNext (s : State) (op : HostOp) (rest : List HostOp) : Prop :=
  s.hostQueue = op :: rest ∧ s.turn = .host

/-- The command in flight completes at the next step: it is the engine's turn (log 2). -/
def State.CompletionNext (s : State) : Prop :=
  s.busy = true ∧ s.turn = .engine

/-- The engine's whole state is the same: every register, both buffers, both parameters. -/
def SameEngine (s t : State) : Prop :=
  t.command = s.command ∧ t.result = s.result ∧ t.code = s.code ∧ t.busy = s.busy ∧ t.inBuf = s.inBuf ∧
    t.outBuf = s.outBuf ∧ t.inCap = s.inCap ∧ t.outCap = s.outCap

/-- Key byte `i mod 4` of the KEY register: `KEY[31-8j : 24-8j]` for `j = i mod 4` (R63). -/
def keyByteAt (key : Word) (i : Nat) : Byte :=
  key.extractLsb' (24 - 8 * (i % 4)) 8

/-- The header length of a wire marker: 2, 4 or 10 (R67). -/
def wireHeaderLength (marker : Nat) : Nat :=
  if marker ≤ 125 then 2 else if marker = 126 then 4 else 10

/-- The status codes an instruction can complete with (R105). -/
def statusCodesOf : Instr → List StatusCode
  | .mask => [.ok, .invalidMaskKey, .allocationFailure, .badCommand]
  | .hdrEncode => [.ok]
  | .hdrDecode => [.ok, .truncatedFrame, .badCommand]
  | .build => [.ok, .invalidMaskKey, .allocationFailure, .badCommand]
  | .parse _ => [.ok, .truncatedFrame, .lengthMismatch, .allocationFailure, .badCommand]
  | .reservedOp0 => [.badCommand]
  | .reservedOp6 => [.badCommand]
  | .reservedOp7 => [.badCommand]
  | .frameLen7 _ _ _ => [.ok]
  | .frameLen16 _ _ _ => [.ok]
  | .frameLen64 _ _ _ => [.ok]

/-- Whether an instruction is a reserved command code (R62). -/
def isReserved (i : Instr) : Bool :=
  i == .reservedOp0 || i == .reservedOp6 || i == .reservedOp7

/-- Whether an instruction is PARSE. -/
def isParse (i : Instr) : Bool :=
  i == .parse false || i == .parse true

/-- Whether an instruction decodes a header: HDR_DECODE or PARSE. -/
def isDecoder (i : Instr) : Bool :=
  i == .hdrDecode || isParse i

/-- The number of bytes a command must write, from the input bytes `d` (R81, R93, R100). -/
def outputSize (i : Instr) (s : State) (d : List Byte) : Nat :=
  let n := s.inLen.toNat
  let marker := (d.getD 1 0).toNat % 128
  if i == .mask then n
  else if i == .build then
    (if n ≤ 125 then 2 else if n ≤ 65535 then 4 else 10) + (if s.keyLength = 4 then 4 else 0) + n
  else if isParse i then
    if marker ≤ 125 then marker else beval (slice d 2 (wireHeaderLength marker))
  else 0

/-- The table of R114: each check with its code, in order, over the input bytes `d`. -/
def errorChecks : List (StatusCode × (Instr → State → List Byte → Bool)) :=
  let marker (d : List Byte) : Nat := (d.getD 1 0).toNat % 128
  let keyField (d : List Byte) : Nat := if 128 ≤ (d.getD 1 0).toNat then 4 else 0
  [ (.badCommand, fun i _ _ => isReserved i),
    (.badCommand, fun i s _ => readsInput i && decide (s.inCap < s.inLen.toNat)),
    (.invalidMaskKey, fun i s _ =>
      (i == .mask && s.keyLength != 4) || (i == .build && s.keyLength != 0 && s.keyLength != 4)),
    (.truncatedFrame, fun i s _ => isDecoder i && decide (s.inLen.toNat < 2)),
    (.truncatedFrame, fun i s d => isDecoder i && decide (s.inLen.toNat < wireHeaderLength (marker d))),
    (.truncatedFrame, fun i s d => isDecoder i && decide (s.inLen.toNat < wireHeaderLength (marker d) + keyField d)),
    (.lengthMismatch, fun i s d =>
      isParse i && decide (wireHeaderLength (marker d) + keyField d + outputSize i s d ≠ s.inLen.toNat)),
    (.allocationFailure, fun i s d => decide (s.outCap < outputSize i s d)) ]

/-- The status of a command by the table of R114: the first check that applies, OK if none does. -/
def firstError (i : Instr) (s : State) (d : List Byte) : StatusCode :=
  match errorChecks.find? (fun c => c.2 i s d) with
  | some c => c.1
  | none => .ok

end Sys2Proof.Machine
end

