-- ==== Sys2Proof/Certificates/Slice0/Obligations.lean ====
section
/-! DEFINITION. The statements for the provers, from the numbered rules of spec/. -/

open Sys2Proof Sys2Proof.Machine

/-! ## Reset, invariant, step -/

/-- R40: after reset every register reads 0, STATUS.CODE is OK, nothing is in flight, every buffer byte is unwritten, and a
START of the command selected then would complete with BAD_COMMAND, for every value of the parameters. -/
def Obligations.ResetLeavesRegistersZeroAndBuffersUnwritten : Prop :=
  ∀ inCap outCap : Nat,
    let s := State.resetWith inCap outCap
    (∀ r, s.register r = 0) ∧ s.code = .ok ∧ s.busy = false ∧
      (∀ a, s.inBuf.read a = none ∧ s.outBuf.read a = none) ∧ CompletesWithError s.selected s .badCommand

/-- The reset state meets the invariant for legal parameters (R9), and so does `State.reset`, whose parameters are the
model's choice (log 1). -/
def Obligations.ResetMeetsInvariant : Prop :=
  (∀ inCap outCap : Nat, inCap ≤ 2 ^ 64 - 1 → 14 ≤ outCap → outCap ≤ 2 ^ 64 - 1 → (State.resetWith inCap outCap).Inv) ∧
    State.reset.Inv

/-- Every step keeps the invariant: buffers in canonical form and inside their capacities, reserved bits 0, R_POFF one of
its values, the input of a command in flight written (R24, R37, R41, R43). The canonical form is the model's. -/
def Obligations.EveryStepKeepsInvariant : Prop :=
  ∀ s t : State, s.Inv → step s = .next t → t.Inv

/-- When a command is in flight and comes to its completion, the step is the meaning of the instruction decoded from CMD,
the turn taken (R54, R61); whose turn it is, is the model's choice (log 2). -/
def Obligations.StepCompletesTheDecodedCommand : Prop :=
  ∀ (s : State) (i : Instr) (w : Word), s.CompletionNext → s.command.cmd = w → decode (.command w) = .ok (i, []) →
    step s = exec i s.afterTurn

/-- When HDR_DECODE comes to its completion and IN_BUF holds the encoding of a wire row at its front, the step is the
meaning of that row, the turn taken (R66, R86, R89; that a wire row is run by HDR_DECODE is the model's choice, log 8). -/
def Obligations.StepRunsTheHeaderInTheInputBuffer : Prop :=
  ∀ (s : State) (i : Instr) (header rest : List Byte), i.wellFormed = true → encode i = .frame header →
    s.CompletionNext → s.selected = .hdrDecode → s.inLen.toNat ≤ s.inCap →
    s.inBuf.readBytes 0 s.inLen.toNat = some (header ++ rest) → step s = exec i s.afterTurn

/-- R57 a: the host's operations take effect in its program order, one at each of its turns; the queue and the turns are
the model's form of it (log 2, log 4). -/
def Obligations.HostOperationsTakeEffectInOrder : Prop :=
  ∀ (s : State) (op : HostOp) (rest : List HostOp), s.HostNext op rest →
    step s = hostPerform op { s.afterTurn with hostQueue := rest }

/-- R125: with no command in flight and no host operation, whoever moves, every register and buffer byte is kept: a step
only takes a turn (log 2, log 4). -/
def Obligations.IdleEngineKeepsEverything : Prop :=
  ∀ s : State, s.busy = false → s.hostQueue = [] → step s = .next s.afterTurn

/-! ## Encodings -/

/-- Words written out from the spec's encodings decode to the instruction they stand for (R61, R64 to R67). -/
def Obligations.WordsOfTheSpecDecode : Prop :=
  decodeCommand 0x00000001 = .mask ∧ decodeCommand 0x00000105 = .parse true ∧
    decodeFrame [0x81, 0x82, 0x12, 0x34, 0x56, 0x78, 0x53, 0x76] =
      .ok (.frameLen7 ⟨true, false, false, false, 1⟩ 2 (some 0x12345678), [0x53, 0x76]) ∧
    decodeFrame [0x82, 0xFE, 0x01, 0x00, 0xAA, 0xBB, 0xCC, 0xDD] =
      .ok (.frameLen16 ⟨true, false, false, false, 2⟩ 256 (some 0xAABBCCDD), []) ∧
    decodeFrame [0x02, 0x7F, 0x80, 0, 0, 0, 0, 0, 0, 0] =
      .ok (.frameLen64 ⟨false, false, false, false, 2⟩ 0x8000000000000000 none, [])

/-- Decoding the encoding of a well-formed instruction gives it back, with the bytes after a frame header untouched. -/
def Obligations.DecodeInvertsEncode : Prop :=
  ∀ (i : Instr) (rest : List Byte), i.wellFormed = true →
    decode ((encode i).followedBy rest) =
      .ok (i, match encode i with
        | .command _ => []
        | .frame _ => rest)

/-- Whatever the frame decoder accepts is a well-formed instruction whose encoding is the bytes it took: no bit of a
header is dropped or misplaced. -/
def Obligations.EncodeInvertsFrameDecode : Prop :=
  ∀ (bytes rest : List Byte) (i : Instr), decodeFrame bytes = .ok (i, rest) →
    i.wellFormed = true ∧ ∃ header, encode i = .frame header ∧ bytes = header ++ rest

/-- R61: OP, bits 2:0, alone selects the command, and bit 8 is read by PARSE only. -/
def Obligations.CommandIsSelectedByOpAlone : Prop :=
  ∀ w : Word,
    (w.extractLsb' 0 3 = 1 → decodeCommand w = .mask) ∧ (w.extractLsb' 0 3 = 2 → decodeCommand w = .hdrEncode) ∧
    (w.extractLsb' 0 3 = 3 → decodeCommand w = .hdrDecode) ∧ (w.extractLsb' 0 3 = 4 → decodeCommand w = .build) ∧
    (w.extractLsb' 0 3 = 5 → decodeCommand w = .parse (w.getLsbD 8)) ∧
    (w.extractLsb' 0 3 = 0 → decodeCommand w = .reservedOp0) ∧ (w.extractLsb' 0 3 = 6 → decodeCommand w = .reservedOp6) ∧
    (w.extractLsb' 0 3 = 7 → decodeCommand w = .reservedOp7)

/-! ## The five commands -/

/-- R79, R80, R81: MASK checks IN_LEN, then the key length, then the output's size; otherwise it completes OK with
`OUT_BUF[i] = IN_BUF[i] XOR key[i mod 4]` for `i < IN_LEN` and no other byte changed. -/
def Obligations.MaskXorsInputWithRepeatingKey : Prop :=
  ∀ s : State,
    let n := s.inLen.toNat
    (s.inCap < n → CompletesWithError .mask s .badCommand) ∧
    (n ≤ s.inCap → s.keyLength ≠ 4 → CompletesWithError .mask s .invalidMaskKey) ∧
    (n ≤ s.inCap → s.keyLength = 4 → s.outCap < n → CompletesWithError .mask s .allocationFailure) ∧
    (n ≤ s.inCap → s.keyLength = 4 → n ≤ s.outCap → (∀ i < n, (s.inBuf.read i).isSome = true) →
      ∃ t, exec .mask s = .next t ∧ CompletedOkPlain s t ∧ t.outLen = s.inLen ∧
        (∀ i < n, t.outBuf.read i = (s.inBuf.read i).map (· ^^^ keyByteAt s.command.key i)) ∧
        ∀ i, n ≤ i → t.outBuf.read i = s.outBuf.read i)

/-- R85: HDR_ENCODE always completes OK, with byte 0 = FLAGS[7:0], byte 1 = FLAGS.MASKED and the marker of PLEN, the minimal
big-endian extension, and no other byte changed. -/
def Obligations.HdrEncodeWritesMinimalHeader : Prop :=
  ∀ s : State,
    let p := s.plen.toNat
    let hl := if p ≤ 125 then 2 else if p ≤ 65535 then 4 else 10
    let marker := if p ≤ 125 then p else if p ≤ 65535 then 126 else 127
    ∃ t, exec .hdrEncode s = .next t ∧ CompletedOkPlain s t ∧ t.outLen.toNat = hl ∧
      t.outBuf.read 0 = some (s.command.flags.extractLsb' 0 8) ∧
      t.outBuf.read 1 = some (BitVec.ofNat 8 ((if s.command.flags.getLsbD 15 then 128 else 0) + marker)) ∧
      (∀ j, j < hl - 2 → t.outBuf.read (2 + j) = some (BitVec.ofNat 8 (p / 256 ^ (hl - 3 - j)))) ∧
      ∀ a, hl ≤ a → t.outBuf.read a = s.outBuf.read a

/-- R87, R89, R90: HDR_DECODE checks IN_LEN against IN_CAP, then the three truncation cases; otherwise it completes OK with
`R_HDR = byte1 << 8 | byte0`, the key, the declared length (not compared with IN_LEN) and the payload offset, and OUT_LEN 0
with no OUT_BUF byte written. -/
def Obligations.HdrDecodeReportsHeaderFields : Prop :=
  ∀ s : State, (s.inCap < s.inLen.toNat → CompletesWithError .hdrDecode s .badCommand) ∧
    ∀ d : List Byte, s.inLen.toNat ≤ s.inCap → s.inBuf.readBytes 0 (min s.inLen.toNat 14) = some d →
      let n := s.inLen.toNat
      let b0 := (d.getD 0 0).toNat
      let b1 := (d.getD 1 0).toNat
      let hl := wireHeaderLength (b1 % 128)
      let off := if 128 ≤ b1 then hl + 4 else hl
      (n < 2 ∨ n < off → CompletesWithError .hdrDecode s .truncatedFrame) ∧
      (2 ≤ n → off ≤ n → ∃ t, exec .hdrDecode s = .next t ∧ CompletedOk s t ∧ t.outLen = 0 ∧
        (∀ a, t.outBuf.read a = s.outBuf.read a) ∧ t.result.rHdr.toNat = b1 * 256 + b0 ∧
        t.result.rKey.toNat = (if 128 ≤ b1 then beval (slice d hl (hl + 4)) else 0) ∧
        t.rPlen.toNat = (if b1 % 128 ≤ 125 then b1 % 128 else beval (slice d 2 hl)) ∧ t.result.rPoff.toNat = off)

/-- R92, R93, R94: BUILD checks IN_LEN, then the key length, then the frame's size; otherwise it completes OK with header,
key bytes and payload in that order, the payload XORed with the key from index 0 if KEY_LEN.LEN = 4 and copied if it is 0,
and no other byte changed. -/
def Obligations.BuildComposesTheFrame : Prop :=
  ∀ s : State, s.CapsLegal →
    let n := s.inLen.toNat
    let masked := s.keyLength = 4
    let hl := if n ≤ 125 then 2 else if n ≤ 65535 then 4 else 10
    let marker := if n ≤ 125 then n else if n ≤ 65535 then 126 else 127
    let off := if masked then hl + 4 else hl
    (s.inCap < n → CompletesWithError .build s .badCommand) ∧
    (n ≤ s.inCap → s.keyLength ≠ 0 → s.keyLength ≠ 4 → CompletesWithError .build s .invalidMaskKey) ∧
    (n ≤ s.inCap → s.keyLength = 0 ∨ s.keyLength = 4 → s.outCap < off + n →
      CompletesWithError .build s .allocationFailure) ∧
    (n ≤ s.inCap → s.keyLength = 0 ∨ s.keyLength = 4 → off + n ≤ s.outCap →
      (∀ i < n, (s.inBuf.read i).isSome = true) →
      ∃ t, exec .build s = .next t ∧ CompletedOkPlain s t ∧ t.outLen.toNat = off + n ∧
        t.outBuf.read 0 = some (s.command.flags.extractLsb' 0 8) ∧
        t.outBuf.read 1 = some (BitVec.ofNat 8 ((if masked then 128 else 0) + marker)) ∧
        (∀ j, j < hl - 2 → t.outBuf.read (2 + j) = some (BitVec.ofNat 8 (n / 256 ^ (hl - 3 - j)))) ∧
        (∀ j, hl + j < off → t.outBuf.read (hl + j) = some (keyByteAt s.command.key j)) ∧
        (∀ i < n, t.outBuf.read (off + i) =
          (s.inBuf.read i).map fun b => if masked then b ^^^ keyByteAt s.command.key i else b) ∧
        ∀ a, off + n ≤ a → t.outBuf.read a = s.outBuf.read a)

/-- R97, R98, R100, R101, R102: PARSE checks IN_LEN, then the header, then the exact total length, then the output's size;
otherwise it completes OK with the decoded fields and the payload, unmasked exactly when the frame is masked and
AUTO_UNMASK = 1, and no other byte changed. -/
def Obligations.ParseValidatesAndExtracts : Prop :=
  ∀ (s : State) (autoUnmask : Bool),
    (s.inCap < s.inLen.toNat → CompletesWithError (.parse autoUnmask) s .badCommand) ∧
    ∀ d : List Byte, s.inLen.toNat ≤ s.inCap → s.inBuf.readBytes 0 s.inLen.toNat = some d →
      (hdrDecode d = none → CompletesWithError (.parse autoUnmask) s .truncatedFrame) ∧
      ∀ h : Header, hdrDecode d = some h →
        (h.poff + h.plen.toNat ≠ s.inLen.toNat → CompletesWithError (.parse autoUnmask) s .lengthMismatch) ∧
        (h.poff + h.plen.toNat = s.inLen.toNat → s.outCap < h.plen.toNat →
          CompletesWithError (.parse autoUnmask) s .allocationFailure) ∧
        (h.poff + h.plen.toNat = s.inLen.toNat → h.plen.toNat ≤ s.outCap →
          ∃ t, exec (.parse autoUnmask) s = .next t ∧ CompletedOk s t ∧ t.outLen = h.plen ∧
            (∀ i < h.plen.toNat, t.outBuf.read i = (s.inBuf.read (h.poff + i)).map fun b =>
              if h.masked = true ∧ autoUnmask = true then b ^^^ h.key.getD (i % 4) 0 else b) ∧
            (∀ a, h.plen.toNat ≤ a → t.outBuf.read a = s.outBuf.read a) ∧
            t.result.rHdr.toNat = (d.getD 1 0).toNat * 256 + (d.getD 0 0).toNat ∧
            t.result.rKey.toNat = beval h.key ∧ t.rPlen = h.plen ∧ t.result.rPoff.toNat = h.poff)

/-- R62: the reserved command codes decode to the reserved rows and complete with BAD_COMMAND, whatever the other registers
and the buffers hold, and a START of one needs no input byte. -/
def Obligations.ReservedCodesCompleteWithBadCommand : Prop :=
  (∀ s : State, CompletesWithError .reservedOp0 s .badCommand ∧ CompletesWithError .reservedOp6 s .badCommand ∧
    CompletesWithError .reservedOp7 s .badCommand) ∧
  ∀ (s : State) (w : Word), w.extractLsb' 0 3 = 0 ∨ w.extractLsb' 0 3 = 6 ∨ w.extractLsb' 0 3 = 7 →
    CompletesWithError (decodeCommand w) s .badCommand ∧ (s.command.cmd = w → s.inputReady = true)

/-- R66, R67: what a header of each wire row decodes to: the declared length, the payload offset, R_HDR and R_KEY. That a
wire row is an instruction whose effect is these result registers is the model's choice (log 8). -/
def Obligations.WireRowsReportLengthAndOffset : Prop :=
  ∀ (s : State) (flags : FrameFlags) (key : Option Word),
    let report (i : Instr) (marker : Nat) (length : Nat) (hl : Nat) : Prop :=
      ∃ t, exec i s = .next t ∧ CompletedOk s t ∧ t.outLen = 0 ∧
        (∀ a, t.outBuf.read a = s.outBuf.read a) ∧
        t.result.rHdr.toNat = (if key.isSome then 32768 else 0) + marker * 256 + flags.byte0.toNat ∧
        t.result.rKey = key.getD 0 ∧ t.rPlen.toNat = length ∧
        t.result.rPoff.toNat = hl + (if key.isSome then 4 else 0)
    (∀ marker : BitVec 7, report (.frameLen7 flags marker key) marker.toNat marker.toNat 2) ∧
    (∀ length : BitVec 16, report (.frameLen16 flags length key) 126 length.toNat 4) ∧
    (∀ length : BitVec 64, report (.frameLen64 flags length key) 127 length.toNat 10)

/-! ## Completion: frames, errors, independence -/

/-- R42: no instruction writes IN_BUF or a command register; nor a parameter or one of the host's fields. Every completion
clears BUSY. The buffers are disjoint: writing one leaves the other. -/
def Obligations.CompletionNeverWritesItsInputs : Prop :=
  (∀ (i : Instr) (s t : State), exec i s = .next t → KeepsInputs s t ∧ t.busy = false) ∧
  ∀ (s : State) (a : Nat) (b : Byte), (s.writeBuffer .output a b).inBuf = s.inBuf ∧
    (s.writeBuffer .input a b).outBuf = s.outBuf

/-- R45: a completion writes exactly the OUT_BUF bytes below OUT_LEN; every other byte keeps its value or stays unwritten;
an error writes none and sets OUT_LEN = 0. -/
def Obligations.CompletionWritesExactlyOutLenBytes : Prop :=
  ∀ (i : Instr) (s t : State), s.CapsLegal → exec i s = .next t →
    (∀ a, a < t.outLen.toNat → (t.outBuf.read a).isSome = true) ∧
    (∀ a, t.outLen.toNat ≤ a → t.outBuf.read a = s.outBuf.read a) ∧
    (t.code ≠ .ok → t.outLen = 0 ∧ ∀ a, t.outBuf.read a = s.outBuf.read a)

/-- R111: after an error every result register reads 0, and STATUS is all that differs otherwise. -/
def Obligations.ErrorRecordsOnlyItsCode : Prop :=
  ∀ (i : Instr) (s t : State), exec i s = .next t → t.code ≠ .ok →
    (∀ r ∈ [Reg.outLenLo, .outLenHi, .rHdr, .rKey, .rPlenLo, .rPlenHi, .rPoff], t.register r = 0) ∧
      t = { s with code := t.code, busy := false, result := t.result }

/-- R34 to R37: only HDR_DECODE and PARSE (and the wire rows, log 8) give decode results, with R_POFF 2, 4, 6, 8, 10 or 14
on success; every other completion writes R_HDR, R_KEY, R_PLEN and R_POFF 0. -/
def Obligations.DecodeResultsComeFromDecodersOnly : Prop :=
  ∀ (i : Instr) (s t : State), exec i s = .next t →
    (isDecoder i = true → t.code = .ok → t.result.rPoff.toNat ∈ [2, 4, 6, 8, 10, 14] ∧ t.result.rHdr.toNat < 65536) ∧
    ((i ∈ [.mask, .hdrEncode, .build, .reservedOp0, .reservedOp6, .reservedOp7] ∨ t.code ≠ .ok) →
      t.result.rHdr = 0 ∧ t.result.rKey = 0 ∧ t.rPlen = 0 ∧ t.result.rPoff = 0)

/-- R105: each command's status codes, and the number STATUS reads after its completion. -/
def Obligations.StatusCodesOfEachCommand : Prop :=
  ∀ (i : Instr) (s t : State), exec i s = .next t →
    t.code ∈ statusCodesOf i ∧
    t.register .status =
      match t.code with
      | .ok => 0
      | .truncatedFrame => 1
      | .lengthMismatch => 2
      | .invalidMaskKey => 3
      | .allocationFailure => 4
      | .badCommand => 5

/-- R114: of several errors the first in the table's order is the one reported. -/
def Obligations.FirstErrorInTheTableIsReported : Prop :=
  ∀ (s : State) (i : Instr) (w : Word) (d : List Byte), encode i = .command w →
    s.inBuf.readBytes 0 (min s.inLen.toNat s.inCap) = some d → ∃ t, exec i s = .next t ∧ t.code = firstError i s d

/-- R19: a command's result depends on the command registers, `IN_BUF[0..IN_LEN)` and the parameters only, never on the
result registers, OUT_BUF, STATUS or an earlier command. -/
def Obligations.ResultDependsOnInputsOnly : Prop :=
  ∀ (i : Instr) (s s' t : State), s'.command = s.command → s'.inCap = s.inCap → s'.outCap = s.outCap →
    (∀ a, a < s.inLen.toNat → s'.inBuf.read a = s.inBuf.read a) → exec i s = .next t →
    ∃ t', exec i s' = .next t' ∧ t'.code = t.code ∧ t'.result = t.result ∧
      ∀ a, a < t.outLen.toNat → t'.outBuf.read a = t.outBuf.read a

/-- R56: a command in flight can always complete; none hangs or blocks. -/
def Obligations.EveryCommandInFlightCanComplete : Prop :=
  ∀ s : State, s.Inv → s.busy = true → ∃ t, exec s.selected s = .next t ∧ t.busy = false

/-- R81, R100: with OUT_CAP at least IN_CAP, MASK and PARSE never complete with ALLOCATION_FAILURE. -/
def Obligations.NoAllocationFailureWhenOutputIsAsLarge : Prop :=
  ∀ (s t : State) (autoUnmask : Bool), s.inCap ≤ s.outCap →
    (exec .mask s = .next t → t.code ≠ .allocationFailure) ∧
    (exec (.parse autoUnmask) s = .next t → t.code ≠ .allocationFailure)

/-! ## The masking function and the header codec -/

/-- R75: `maskf` keeps the length, and `out[i] = data[i] XOR key[i mod 4]`. -/
def Obligations.MaskfXorsEachByteWithKeyIndexMod4 : Prop :=
  ∀ data key : List Byte, key.length = 4 →
    (maskf data key).length = data.length ∧
    ∀ i, (maskf data key)[i]? = data[i]?.map (· ^^^ key.getD (i % 4) 0)

/-- R76, R77: the chunked datapath gives `maskf` for every chunk width that is a positive multiple of 4. -/
def Obligations.ChunkedMaskingEqualsMaskf : Prop :=
  ∀ (width : Nat) (data key : List Byte), 0 < width → width % 4 = 0 → key.length = 4 →
    maskWide width data key = maskf data key

/-- R78: involution, zero key, prefix, and concatenation at a multiple of 4 only. -/
def Obligations.MaskfLaws : Prop :=
  (∀ data key : List Byte, key.length = 4 → maskf (maskf data key) key = data) ∧
  (∀ data : List Byte, maskf data [0, 0, 0, 0] = data) ∧
  (∀ (data key : List Byte) (j : Nat), key.length = 4 → j ≤ data.length →
    maskf (data.take j) key = (maskf data key).take j) ∧
  (∀ a b key : List Byte, key.length = 4 → a.length % 4 = 0 → maskf (a ++ b) key = maskf a key ++ maskf b key) ∧
  ∃ a b key : List Byte, key.length = 4 ∧ a.length % 4 ≠ 0 ∧ maskf (a ++ b) key ≠ maskf a key ++ maskf b key

/-- R87: `hdr_decode` fails in exactly the three truncation cases. -/
def Obligations.HeaderDecodeFailsOnlyWhenTruncated : Prop :=
  ∀ buf : List Byte,
    let n := buf.length
    let b1 := (buf.getD 1 0).toNat
    hdrDecode buf = none ↔
      n < 2 ∨ (b1 % 128 = 126 ∧ n < 4) ∨ (b1 % 128 = 127 ∧ n < 10) ∨
        (128 ≤ b1 ∧ n < wireHeaderLength (b1 % 128) + 4)

/-- R91: encode then decode gives the same fields with the minimal marker; decode then encode is the identity exactly on
headers with the minimal marker. -/
def Obligations.HeaderEncodeDecodeRoundTrip : Prop :=
  (∀ (flags : FrameFlags) (masked : Bool) (p : DWord) (key rest : List Byte), key.length = 4 →
    hdrDecode (hdrEncode flags masked p ++ (if masked then key else []) ++ rest) =
      some { flags := flags, masked := masked, marker := lengthMarker p, plen := p,
             key := if masked then key else [0, 0, 0, 0],
             poff := headerLength p + (if masked then 4 else 0) }) ∧
  ∀ (buf : List Byte) (h : Header), hdrDecode buf = some h →
    (hdrEncode h.flags h.masked h.plen = buf.take (wireHeaderLength h.marker.toNat) ↔ h.marker = lengthMarker h.plen)

/-- R72, R73: non-minimal lengths and lengths with bit 63 set decode to the value they carry, with the header length their
marker gives; the encode direction never produces a non-minimal one. -/
def Obligations.NonMinimalLengthsDecode : Prop :=
  (∀ (flags : FrameFlags) (key : Option Word) (length : BitVec 16) (header rest : List Byte),
    encode (.frameLen16 flags length key) = .frame header →
    ∃ h, hdrDecode (header ++ rest) = some h ∧ h.marker = 126 ∧ h.plen.toNat = length.toNat ∧
      h.poff = 4 + (if key.isSome then 4 else 0)) ∧
  (∀ (flags : FrameFlags) (key : Option Word) (length : BitVec 64) (header rest : List Byte),
    encode (.frameLen64 flags length key) = .frame header →
    ∃ h, hdrDecode (header ++ rest) = some h ∧ h.marker = 127 ∧ h.plen = length ∧
      h.poff = 10 + (if key.isSome then 4 else 0) ∧
      (length.getLsbD 63 = true → 2 ^ 63 + 10 ≤ h.poff + h.plen.toNat)) ∧
  ∀ p : DWord, (lengthMarker p = 126 → 126 ≤ p.toNat) ∧ (lengthMarker p = 127 → 65536 ≤ p.toNat)

/-- R99: the sum is at most `14 + 2^64 - 1`, and a 64-bit wrapping sum gives the same verdict on every input that reaches
the length check. -/
def Obligations.LengthSumNeedsNoWrap : Prop :=
  ∀ (buf : List Byte) (h : Header), buf.length < 2 ^ 64 → hdrDecode buf = some h →
    h.poff + h.plen.toNat ≤ 14 + 2 ^ 64 - 1 ∧
    ((BitVec.ofNat 64 h.poff + h.plen).toNat = buf.length ↔ h.poff + h.plen.toNat = buf.length)

/-- R104: a frame BUILD made, copied into IN_BUF, is parsed back to its fields, key and payload. -/
def Obligations.ParseInvertsBuild : Prop :=
  ∀ s t u : State, s.CapsLegal → exec .build s = .next t → t.code = .ok →
    u.inLen = t.outLen → t.outLen.toNat ≤ u.inCap → s.inLen.toNat ≤ u.outCap →
    (∀ a, a < t.outLen.toNat → u.inBuf.read a = t.outBuf.read a) →
    ∃ v, exec (.parse true) u = .next v ∧ v.code = .ok ∧
      v.result.rHdr.extractLsb' 0 8 = s.command.flags.extractLsb' 0 8 ∧
      v.result.rHdr.getLsbD 15 = (s.keyLength == 4) ∧
      v.result.rHdr.extractLsb' 8 7 = lengthMarker s.inLen ∧
      v.result.rKey = (if s.keyLength = 4 then s.command.key else 0) ∧
      v.rPlen = s.inLen ∧ v.outLen = s.inLen ∧
      ∀ a, a < s.inLen.toNat → v.outBuf.read a = s.inBuf.read a

/-! ## The host's side -/

/-- R23: the register map. -/
def Obligations.RegisterMapReadsEachRegister : Prop :=
  ∀ s : State,
    s.readOffset 0x00 = s.command.cmd ∧ s.readOffset 0x04 = s.command.flags ∧ s.readOffset 0x08 = s.command.key ∧
    s.readOffset 0x0C = s.command.keyLen ∧ s.readOffset 0x10 = s.command.plenLo ∧ s.readOffset 0x14 = s.command.plenHi ∧
    s.readOffset 0x18 = s.command.inLenLo ∧ s.readOffset 0x1C = s.command.inLenHi ∧ s.readOffset 0x20 = 0 ∧
    (s.readOffset 0x24).toNat = (if s.busy then 2 ^ 31 else 0) + s.code.bits.toNat ∧
    s.readOffset 0x28 = s.result.outLenLo ∧ s.readOffset 0x2C = s.result.outLenHi ∧ s.readOffset 0x30 = s.result.rHdr ∧
    s.readOffset 0x34 = s.result.rKey ∧ s.readOffset 0x38 = s.result.rPlenLo ∧ s.readOffset 0x3C = s.result.rPlenHi ∧
    s.readOffset 0x40 = s.result.rPoff ∧ ∀ offset, 0x44 ≤ offset → s.readOffset offset = 0

/-- R25 to R30: outside BUSY a write to a command register stores its named bits, which read back, and changes no other
register and no buffer byte. -/
def Obligations.CommandRegisterReadsBackAsWritten : Prop :=
  ∀ (s : State) (r : Reg) (v : Word) (rest : List HostOp), s.busy = false →
    r ∈ [Reg.cmd, .flags, .key, .keyLen, .plenLo, .plenHi, .inLenLo, .inLenHi] → s.HostNext (.wr 32 r.offset v) rest →
    ∃ t, step s = .next t ∧ t.register r = v &&& r.namedBits ∧ (∀ r', r' ≠ r → t.register r' = s.register r') ∧
      t.busy = false ∧ t.inBuf = s.inBuf ∧ t.outBuf = s.outBuf ∧ t.inCap = s.inCap ∧ t.outCap = s.outCap ∧
      t.hostQueue = rest ∧ t.hostReads = s.hostReads

/-- R24: reserved bits read 0, also after a write; reserved offsets and read-only registers ignore writes, also during BUSY;
reserved offsets read 0. -/
def Obligations.ReservedAndReadOnlyIgnoreWrites : Prop :=
  (∀ (s : State) (r : Reg), s.ReservedZero → s.register r &&& ~~~r.namedBits = 0) ∧
  (∀ (s t : State) (r : Reg) (v : Word) (rest : List HostOp), s.ReservedZero → s.HostNext (.wr 32 r.offset v) rest →
    step s = .next t → t.ReservedZero ∧ t.register r &&& ~~~r.namedBits = 0) ∧
  (∀ (s : State) (offset : Nat), 0x44 ≤ offset → s.readOffset offset = 0) ∧
  ∀ (s : State) (offset : Nat) (v : Word) (rest : List HostOp), offset % 4 = 0 → offset ≤ 0xFF →
    (0x44 ≤ offset ∨ offset ∈ [0x24, 0x28, 0x2C, 0x30, 0x34, 0x38, 0x3C, 0x40]) →
    s.HostNext (.wr 32 offset v) rest →
    ∃ t, step s = .next t ∧ SameEngine s t ∧ t.hostQueue = rest ∧ t.hostReads = s.hostReads

/-- R31: START reads 0; GO = 0 has no effect; GO = 1 with BUSY = 0 sets BUSY and changes no other engine state; GO = 1 with
BUSY = 1 is refused (R130). -/
def Obligations.StartBeginsTheSelectedCommand : Prop :=
  ∀ (s : State) (v : Word) (rest : List HostOp), s.HostNext (.wr 32 0x20 v) rest →
    s.readOffset 0x20 = 0 ∧
    (v.getLsbD 0 = false → ∃ t, step s = .next t ∧ SameEngine s t) ∧
    (v.getLsbD 0 = true → s.busy = true → step s = .refused .writeWhileBusy) ∧
    (v.getLsbD 0 = true → s.busy = false → s.inputReady = true →
      ∃ t, step s = .next t ∧ t.busy = true ∧ SameEngine { s with busy := true } t ∧ t.selected = s.selected ∧
        t.hostQueue = rest ∧ t.hostReads = s.hostReads)

/-- R43: after reset every byte is unwritten; the OUT_BUF bytes of a completion are written; a host read of an unwritten
OUT_BUF byte is a fault (while BUSY = 0; during BUSY see log 17); a START of MASK, HDR_DECODE, BUILD or PARSE with an
unwritten byte in `IN_BUF[0..min(IN_LEN, IN_CAP))` is refused; a byte the host writes is written. -/
def Obligations.UnwrittenBytesHaveNoValue : Prop :=
  (∀ inCap outCap a : Nat, (State.resetWith inCap outCap).inBuf.read a = none ∧
    (State.resetWith inCap outCap).outBuf.read a = none) ∧
  (∀ (i : Instr) (s t : State) (a : Nat), s.CapsLegal → exec i s = .next t → a < t.outLen.toNat →
    (t.outBuf.read a).isSome = true) ∧
  (∀ (s : State) (a : Nat) (rest : List HostOp), s.busy = false → a < s.outCap → s.outBuf.read a = none →
    s.HostNext (.rdb .output 8 a) rest → step s = .fault .unwrittenByteRead) ∧
  (∀ (s : State) (v : Word) (a : Nat) (rest : List HostOp), s.busy = false → v.getLsbD 0 = true →
    (s.selected = .mask ∨ s.selected = .hdrDecode ∨ s.selected = .build ∨ ∃ u, s.selected = .parse u) →
    a < min s.inLen.toNat s.inCap → s.inBuf.read a = none → s.HostNext (.wr 32 0x20 v) rest →
    step s = .refused .unwrittenInput) ∧
  ∀ (s : State) (buffer : Buffer) (a : Nat) (b : Byte) (rest : List HostOp), s.busy = false → a < s.capacity buffer →
    s.HostNext (.wrb buffer 8 a b) rest →
    ∃ t, step s = .next t ∧ (t.buffer buffer).read a = some b ∧
      (∀ a', a' ≠ a → (t.buffer buffer).read a' = (s.buffer buffer).read a') ∧
      (∀ other, other ≠ buffer → t.buffer other = s.buffer other) ∧ t.command = s.command ∧ t.result = s.result ∧
      t.code = s.code ∧ t.busy = false

/-- Every access of another width, at an offset that is not a multiple of 4 or above 0xFF, or at an index at or above the
capacity is refused (R49); every admitted register read is taken. That the refusal is this one also where another stop would
apply (during BUSY, R130; at an unwritten byte, R43) is the model's order of checks (DESIGN CHOICE, log 14). -/
def Obligations.OnlyAdmittedAccessesAreTaken : Prop :=
  ∀ (s : State) (rest : List HostOp),
    (∀ width offset, (width ≠ 32 ∨ offset % 4 ≠ 0 ∨ 0xFF < offset) →
      (s.HostNext (.rd width offset) rest → step s = .refused .accessNotAdmitted) ∧
      ∀ v, s.HostNext (.wr width offset v) rest → step s = .refused .accessNotAdmitted) ∧
    (∀ buffer width index, (width ≠ 8 ∨ s.capacity buffer ≤ index) →
      (s.HostNext (.rdb buffer width index) rest → step s = .refused .accessNotAdmitted) ∧
      ∀ b, s.HostNext (.wrb buffer width index b) rest → step s = .refused .accessNotAdmitted) ∧
    ∀ offset, offset % 4 = 0 → offset ≤ 0xFF → s.HostNext (.rd 32 offset) rest →
      ∃ t, step s = .next t ∧ t.hostReads = .word (s.readOffset offset) :: s.hostReads

/-- R50: a read of a register or of a buffer byte changes nothing of the engine. -/
def Obligations.HostReadsHaveNoSideEffects : Prop :=
  ∀ (s t : State) (rest : List HostOp), step s = .next t →
    ((∃ width offset, s.HostNext (.rd width offset) rest) ∨
      (∃ buffer width index, s.HostNext (.rdb buffer width index) rest)) →
    SameEngine s t ∧ t.hostQueue = rest ∧ ∃ v, t.hostReads = v :: s.hostReads

/-- R50, R41: outside BUSY a read of a written buffer byte returns it. -/
def Obligations.BufferReadReturnsTheWrittenByte : Prop :=
  ∀ (s : State) (buffer : Buffer) (a : Nat) (b : Byte) (rest : List HostOp), s.busy = false →
    a < s.capacity buffer → (s.buffer buffer).read a = some b → s.HostNext (.rdb buffer 8 a) rest →
    ∃ t, step s = .next t ∧ SameEngine s t ∧ t.hostReads = .byte b :: s.hostReads

/-- R130: during BUSY the host's writes to the command registers, to START with GO = 1 and to either buffer are refused;
writes to reserved offsets and read-only registers are ignored as always. -/
def Obligations.HostWritesDuringBusyAreRefused : Prop :=
  ∀ (s : State) (rest : List HostOp), s.busy = true →
    (∀ r ∈ [Reg.cmd, .flags, .key, .keyLen, .plenLo, .plenHi, .inLenLo, .inLenHi], ∀ v,
      s.HostNext (.wr 32 r.offset v) rest → step s = .refused .writeWhileBusy) ∧
    (∀ v, v.getLsbD 0 = true → s.HostNext (.wr 32 0x20 v) rest → step s = .refused .writeWhileBusy) ∧
    (∀ buffer a b, a < s.capacity buffer → s.HostNext (.wrb buffer 8 a b) rest → step s = .refused .writeWhileBusy) ∧
    ∀ offset v, offset % 4 = 0 → offset ≤ 0xFF → (0x44 ≤ offset ∨ offset ∈ [0x24, 0x28, 0x2C, 0x30, 0x34, 0x38, 0x3C, 0x40]) →
      s.HostNext (.wr 32 offset v) rest → ∃ t, step s = .next t ∧ SameEngine s t

/-- During BUSY a read of STATUS returns BUSY = 1 and the previous CODE, a read of any other register the value it had, and a
read of an OUT_BUF byte a free byte (R131). That the free byte is `Config.freeByte` of a counter is the model's choice (DESIGN
CHOICE, log 3), and so is that an unwritten byte gives it too (DESIGN CHOICE, log 17). -/
def Obligations.HostReadsDuringBusyReturnPreviousValues : Prop :=
  ∀ (s : State) (rest : List HostOp), s.busy = true →
    (s.HostNext (.rd 32 0x24) rest → ∃ t v, step s = .next t ∧ SameEngine s t ∧ t.hostReads = .word v :: s.hostReads ∧
      v.toNat = 2 ^ 31 + s.code.bits.toNat) ∧
    (∀ r : Reg, s.HostNext (.rd 32 r.offset) rest → ∃ t, step s = .next t ∧ SameEngine s t ∧
      t.hostReads = .word (s.register r) :: s.hostReads) ∧
    ∀ a, a < s.outCap → s.HostNext (.rdb .output 8 a) rest → ∃ t, step s = .next t ∧ SameEngine s t ∧
      t.hostReads = .byte (Config.freeByte s.freeCount) :: s.hostReads ∧ t.freeCount = s.freeCount + 1

/-- A reset abandons a command in flight: the engine is in the reset state of its parameters, no completion is due, and with
no host operation left none ever comes (R126, R127). That a reset is an operation of the host's program that leaves the rest
of it and the parameters is the model's choice (DESIGN CHOICE, log 13). -/
def Obligations.ResetAbandonsTheCommandInFlight : Prop :=
  ∀ (s : State) (rest : List HostOp), s.HostNext .reset rest →
    ∃ t, step s = .next t ∧ SameEngine (State.resetWith s.inCap s.outCap) t ∧ t.hostQueue = rest ∧
      ¬ t.CompletionNext ∧ (rest = [] → ∀ k, ∃ u, Host.Core.run Sys2Proof.core k t = .next u ∧ SameEngine t u)

/-- R54, R56, R129: whatever the turns, a host that writes START and waits sees BUSY = 0 after finitely many steps, when the
command has completed exactly once: the results are those of the selected instruction on the state at START. The turns and
`wait` as a host operation are the model's choices (DESIGN CHOICE, log 2, log 15). -/
def Obligations.StartThenWaitEndsWithTheResults : Prop :=
  ∀ (s : State) (rest : List HostOp), s.Inv → s.busy = false → s.inputReady = true →
    s.hostQueue = .wr 32 0x20 1 :: .wait :: rest →
    ∃ k t u, Host.Core.run Sys2Proof.core k s = .next t ∧ exec s.selected s = .next u ∧ SameEngine u t ∧
      t.busy = false ∧ t.hostQueue = rest ∧ t.hostReads.head? = some (.word t.statusWord)

/-- R55: while a command is in flight, a step that is taken is a reset, or leaves BUSY 1 and every register and buffer byte
at its previous value, or is the completion, which does all its writes and clears BUSY at once. -/
def Obligations.OnlyTheCompletionChangesTheEngine : Prop :=
  ∀ s t : State, s.busy = true → step s = .next t →
    (∃ rest, s.HostNext .reset rest) ∨ (t.busy = true ∧ SameEngine s t) ∨
      (t.busy = false ∧ s.CompletionNext ∧ exec s.selected s.afterTurn = .next t)

/-- `copy_out_in` (R74): the written OUT_BUF bytes of the range appear in IN_BUF at the same indices; every other byte of
both buffers, every register and both parameters are as before. The form of the operation is the model's choice (DESIGN
CHOICE, log 15). -/
def Obligations.CopyOutInMovesTheBytes : Prop :=
  ∀ (s : State) (first count : Nat) (rest : List HostOp), s.busy = false →
    s.hostQueue = .copyOutIn first count :: rest → first + count ≤ s.inCap → first + count ≤ s.outCap →
    (∀ a, first ≤ a → a < first + count → (s.outBuf.read a).isSome = true) →
    ∃ k t, Host.Core.run Sys2Proof.core k s = .next t ∧ t.hostQueue = rest ∧ t.outBuf = s.outBuf ∧
      t.command = s.command ∧ t.result = s.result ∧ t.code = s.code ∧ t.busy = false ∧
      t.inCap = s.inCap ∧ t.outCap = s.outCap ∧
      ∀ a, t.inBuf.read a = if first ≤ a ∧ a < first + count then s.outBuf.read a else s.inBuf.read a

/-- R56: whatever the turns, a command in flight comes to its completion after finitely many steps, with every register and
buffer byte as it was until then, unless the host resets the engine or one of its operations stops the run. The turns, any
finite list, are the model's form of fairness (DESIGN CHOICE, log 2). -/
def Obligations.EveryCommandInFlightCompletesUnderEverySchedule : Prop :=
  ∀ s : State, s.Inv → s.busy = true →
    ∃ k u, Host.Core.run Sys2Proof.core k s = .next u ∧ SameEngine s u ∧
      ((u.CompletionNext ∧ ∃ t v, step u = .next t ∧ t.busy = false ∧ exec s.selected s = .next v ∧ SameEngine v t) ∨
        (∃ rest, u.HostNext .reset rest) ∨ (∃ r, step u = .refused r) ∨ ∃ f, step u = .fault f)
end

