-- ==== Sys2Proof/Laws/Bytes.lean ====
section
/-! SUPPORT. The byte-order helpers and the bit fields: each packing is undone by its unpacking. -/

namespace Sys2Proof

/-! ## Big-endian byte sequences -/

@[simp] theorem be16_length (v : BitVec 16) : (be16 v).length = 2 := rfl

@[simp] theorem be32_length (v : Word) : (be32 v).length = 4 := rfl

@[simp] theorem be64_length (v : DWord) : (be64 v).length = 8 := rfl

theorem beval_be16 (v : BitVec 16) : beval (be16 v) = v.toNat := by
  have := v.isLt
  simp [beval, be16, BitVec.extractLsb'_toNat, Nat.shiftRight_eq_div_pow]
  omega

theorem beval_be32 (v : Word) : beval (be32 v) = v.toNat := by
  have := v.isLt
  simp [beval, be32, BitVec.extractLsb'_toNat, Nat.shiftRight_eq_div_pow]
  omega

theorem beval_be64 (v : DWord) : beval (be64 v) = v.toNat := by
  have := v.isLt
  simp [beval, be64, BitVec.extractLsb'_toNat, Nat.shiftRight_eq_div_pow]
  omega

/-- A byte of a value is the value shifted, modulo 256 (R13). -/
theorem extractByte_eq_ofNat {w : Nat} (v : BitVec w) (k : Nat) :
    v.extractLsb' k 8 = BitVec.ofNat 8 (v.toNat / 2 ^ k) := by
  apply BitVec.eq_of_toNat_eq
  simp [BitVec.extractLsb'_toNat, Nat.shiftRight_eq_div_pow]

/-! ## Fields joined and taken apart -/

theorem extract_append_low {n : Nat} (x : BitVec n) (b : Byte) : (x ++ b).extractLsb' 0 8 = b := by
  ext i hi
  simp [BitVec.getLsbD_append, hi]

theorem extract_append_high {n : Nat} (x : BitVec n) (b : Byte) (k : Nat) :
    (x ++ b).extractLsb' (k + 8) 8 = x.extractLsb' k 8 := by
  ext i hi
  simp [BitVec.getLsbD_append, show ¬ (k + 8 + i < 8) by omega, show k + 8 + i - 8 = k + i by omega]

/-- Adjacent bit fields joined are one field. -/
theorem extract_append_extract {n : Nat} (v : BitVec n) (k a b : Nat) :
    v.extractLsb' (k + b) a ++ v.extractLsb' k b = v.extractLsb' k (a + b) := by
  apply BitVec.eq_of_getLsbD_eq
  intro i hi
  rw [BitVec.getLsbD_append]
  by_cases h : i < b
  · simp [h, show i < a + b by omega]
  · simp [h, show i - b < a by omega, show i < a + b by omega, show k + b + (i - b) = k + i by omega]

theorem be16_append (a b : Byte) : be16 (a ++ b) = [a, b] := by
  simp only [be16, List.cons.injEq, and_true]
  refine ⟨?_, extract_append_low a b⟩
  rw [extract_append_high a b 0]
  simp

theorem be32_append (a b c d : Byte) : be32 (a ++ b ++ c ++ d) = [a, b, c, d] := by
  have h3 := extract_append_high (a ++ b ++ c) d
  have h2 := extract_append_high (a ++ b) c
  have h1 := extract_append_high a b
  simp only [be32, h3 16, h3 8, h3 0, h2 8, h2 0, h1 0, extract_append_low]
  simp

theorem be64_append (a b c d e f g h : Byte) :
    be64 (a ++ b ++ c ++ d ++ e ++ f ++ g ++ h) = [a, b, c, d, e, f, g, h] := by
  have h7 := extract_append_high (a ++ b ++ c ++ d ++ e ++ f ++ g) h
  have h6 := extract_append_high (a ++ b ++ c ++ d ++ e ++ f) g
  have h5 := extract_append_high (a ++ b ++ c ++ d ++ e) f
  have h4 := extract_append_high (a ++ b ++ c ++ d) e
  have h3 := extract_append_high (a ++ b ++ c) d
  have h2 := extract_append_high (a ++ b) c
  have h1 := extract_append_high a b
  simp only [be64, h7 48, h7 40, h7 32, h7 24, h7 16, h7 8, h7 0, h6 40, h6 32, h6 24, h6 16, h6 8, h6 0,
    h5 32, h5 24, h5 16, h5 8, h5 0, h4 24, h4 16, h4 8, h4 0, h3 16, h3 8, h3 0, h2 8, h2 0, h1 0, extract_append_low]
  simp

theorem append_bytes16 (v : BitVec 16) : v.extractLsb' 8 8 ++ v.extractLsb' 0 8 = v := by
  have := extract_append_extract v 0 8 8
  simpa using this

theorem append_bytes32 (v : Word) :
    v.extractLsb' 24 8 ++ v.extractLsb' 16 8 ++ v.extractLsb' 8 8 ++ v.extractLsb' 0 8 = v := by
  have h := extract_append_extract v
  have h2 := h 16 8 8
  have h3 := h 8 16 8
  have h4 := h 0 24 8
  simp only [Nat.reduceAdd, Nat.zero_add] at h2 h3 h4
  rw [h2]
  erw [h3]
  erw [h4]
  simp

theorem append_bytes64 (v : DWord) :
    v.extractLsb' 56 8 ++ v.extractLsb' 48 8 ++ v.extractLsb' 40 8 ++ v.extractLsb' 32 8 ++
      v.extractLsb' 24 8 ++ v.extractLsb' 16 8 ++ v.extractLsb' 8 8 ++ v.extractLsb' 0 8 = v := by
  have h := extract_append_extract v
  have h2 := h 48 8 8
  have h3 := h 40 16 8
  have h4 := h 32 24 8
  have h5 := h 24 32 8
  have h6 := h 16 40 8
  have h7 := h 8 48 8
  have h8 := h 0 56 8
  simp only [Nat.reduceAdd, Nat.zero_add] at h2 h3 h4 h5 h6 h7 h8
  rw [h2]
  erw [h3]
  erw [h4]
  erw [h5]
  erw [h6]
  erw [h7]
  erw [h8]
  simp

/-! ## Frame bytes 0 and 1 (R64) -/

@[simp] theorem byte0_ofByte0 (b : Byte) : (FrameFlags.ofByte0 b).byte0 = b := by
  revert b; decide

@[simp] theorem ofByte0_byte0 (f : FrameFlags) : FrameFlags.ofByte0 f.byte0 = f := by
  obtain ⟨fin, rsv1, rsv2, rsv3, opcode⟩ := f
  revert fin rsv1 rsv2 rsv3 opcode; decide

theorem frameByte1_masked (masked : Bool) (marker : BitVec 7) : (frameByte1 masked marker).getLsbD 7 = masked := by
  revert masked marker; decide

/-- The form `simp` brings bit 7 to. -/
@[simp] theorem frameByte1_getElem_7 (masked : Bool) (marker : BitVec 7) : (frameByte1 masked marker)[7] = masked := by
  revert masked marker; decide

@[simp] theorem frameByte1_marker (masked : Bool) (marker : BitVec 7) :
    (frameByte1 masked marker).extractLsb' 0 7 = marker := by
  revert masked marker; decide

theorem frameByte1_eta (b : Byte) : frameByte1 (b.getLsbD 7) (b.extractLsb' 0 7) = b := by
  revert b; decide

@[simp] theorem frameByte1_eta_getElem (b : Byte) : frameByte1 b[7] (b.extractLsb' 0 7) = b := by
  revert b; decide

theorem frameByte1_toNat (masked : Bool) (marker : BitVec 7) :
    (frameByte1 masked marker).toNat = (if masked then 128 else 0) + marker.toNat := by
  revert masked marker; decide

end Sys2Proof

namespace Sys2Proof.Machine

/-! ## Register pairs (R48) -/

@[simp] theorem joinWords_high_low (v : DWord) : joinWords (highWord v) (lowWord v) = v := by
  have := extract_append_extract v 0 32 32
  simpa [joinWords, highWord, lowWord] using this

@[simp] theorem lowWord_joinWords (h l : Word) : lowWord (joinWords h l) = l := by
  apply BitVec.eq_of_getLsbD_eq
  intro i hi
  unfold lowWord joinWords
  rw [BitVec.getLsbD_extractLsb', BitVec.getLsbD_append]
  simp [hi]

@[simp] theorem highWord_joinWords (h l : Word) : highWord (joinWords h l) = h := by
  apply BitVec.eq_of_getLsbD_eq
  intro i hi
  unfold highWord joinWords
  rw [BitVec.getLsbD_extractLsb', BitVec.getLsbD_append]
  simp [hi]

/-- R_KEY of the bytes of a key word is the word (R47). -/
@[simp] theorem keyWord_be32 (key : Word) : keyWord (be32 key) = key := by
  rw [keyWord, beval_be32, BitVec.ofNat_toNat, BitVec.setWidth_eq]

end Sys2Proof.Machine
end

