-- ==== Sys2Proof/Laws/Memory.lean ====
section
/-! SUPPORT. The laws of the buffers: what a read gives after a write, and that a write keeps the canonical form. -/

namespace Sys2Proof.Machine

@[simp] theorem run_length (a : Nat) (v : List Byte) : (Memory.run a v).length = v.length := by
  induction v generalizing a with
  | nil => rfl
  | cons b v ih => simp [Memory.run, ih]

theorem mem_run {a : Nat} {v : List Byte} {c : Host.Cell} (h : c ∈ Memory.run a v) : a ≤ c.1 ∧ c.1 < a + v.length := by
  induction v generalizing a with
  | nil => cases h
  | cons b v ih =>
    rcases List.mem_cons.1 h with rfl | h
    · simp
    · have := ih h
      simp only [List.length_cons]
      omega

theorem run_wf (a : Nat) (v : List Byte) : (Memory.run a v).wf := by
  induction v generalizing a with
  | nil => exact List.Pairwise.nil
  | cons b v ih =>
    refine List.Pairwise.cons (fun c hc => ?_) (ih (a + 1))
    have := (mem_run hc).1
    exact this

theorem lookup_run (a i : Nat) (v : List Byte) :
    (Memory.run a v).lookup i = if a ≤ i then v[i - a]? else none := by
  induction v generalizing a with
  | nil => simp [Memory.run]
  | cons b v ih =>
    rw [Memory.run, List.lookup_cons]
    by_cases h : i = a
    · subst h; simp
    · simp only [beq_eq_false_iff_ne.2 h, ih]
      by_cases h2 : a ≤ i
      · rw [if_pos h2, if_pos (by omega), show i - a = (i - (a + 1)) + 1 by omega, List.getElem?_cons_succ]
      · rw [if_neg h2, if_neg (by omega)]

theorem lookup_filter (m : Memory) (p : Nat → Bool) (i : Nat) :
    (m.filter (fun c => p c.1)).lookup i = if p i then m.lookup i else none := by
  induction m with
  | nil => simp
  | cons c m ih =>
    obtain ⟨a, b⟩ := c
    rw [List.filter_cons, List.lookup_cons]
    by_cases hp : p a
    · rw [if_pos (by exact hp), List.lookup_cons, ih]
      by_cases h : i = a
      · subst h; simp [hp]
      · simp [beq_eq_false_iff_ne.2 h]
    · rw [if_neg (by exact hp), ih]
      by_cases h : i = a
      · subst h; simp [hp]
      · simp [beq_eq_false_iff_ne.2 h]

/-- A read after a write of bytes: the byte written at that index, or what was there. -/
theorem read_writeBytes (m : Memory) (a : Nat) (v : List Byte) (i : Nat) :
    (m.writeBytes a v).read i = if a ≤ i ∧ i < a + v.length then v[i - a]? else m.read i := by
  unfold Memory.writeBytes Memory.read
  rw [List.lookup_append, List.lookup_append, lookup_filter m (fun x => decide (x < a)) i,
    lookup_filter m (fun x => decide (a + v.length ≤ x)) i, lookup_run]
  by_cases h1 : a ≤ i
  · by_cases h2 : i < a + v.length
    · have h3 : i - a < v.length := by omega
      simp [h1, h2, List.getElem?_eq_getElem h3, show ¬ i < a by omega]
    · simp [h1, h2, show ¬ i < a by omega, List.getElem?_eq_none (show v.length ≤ i - a by omega), show a + v.length ≤ i by omega]
  · simp [h1, show i < a by omega, show ¬ (a + v.length ≤ i) by omega]

theorem read_write (m : Memory) (a : Nat) (b : Byte) (i : Nat) :
    (m.write a b).read i = if i = a then some b else m.read i := by
  rw [Memory.write, read_writeBytes]
  by_cases h : i = a
  · subst h; simp
  · rw [if_neg h, if_neg (by simp; omega)]

@[simp] theorem read_nil (i : Nat) : Memory.read [] i = none := rfl

theorem read_writeBytes_inside (m : Memory) (v : List Byte) {i : Nat} (h : i < v.length) :
    (m.writeBytes 0 v).read i = v[i]? := by
  rw [read_writeBytes, if_pos (by omega), Nat.sub_zero]

theorem read_writeBytes_outside (m : Memory) (v : List Byte) {i : Nat} (h : v.length ≤ i) :
    (m.writeBytes 0 v).read i = m.read i := by
  rw [read_writeBytes, if_neg (by omega)]

/-- Every write keeps the canonical form. -/
theorem writeBytes_wf {m : Memory} (h : m.wf) (a : Nat) (v : List Byte) : (m.writeBytes a v).wf := by
  unfold Memory.writeBytes Memory.wf
  rw [List.pairwise_append, List.pairwise_append]
  refine ⟨⟨h.filter _, run_wf a v, ?_⟩, h.filter _, ?_⟩
  · intro c hc d hd
    have h1 := (List.mem_filter.1 hc).2
    have h2 := mem_run hd
    simp only [decide_eq_true_eq] at h1
    omega
  · intro c hc d hd
    have h1 := (List.mem_filter.1 hd).2
    simp only [decide_eq_true_eq] at h1
    rcases List.mem_append.1 hc with hc | hc
    · have h2 := (List.mem_filter.1 hc).2
      simp only [decide_eq_true_eq] at h2
      omega
    · have h2 := mem_run hc
      omega

/-- A write below a capacity keeps every index below it. -/
theorem writeBytes_below {m : Memory} {cap : Nat} (h : m.below cap) {a : Nat} {v : List Byte} (hv : a + v.length ≤ cap) :
    (m.writeBytes a v).below cap := by
  intro c hc
  unfold Memory.writeBytes at hc
  rcases List.mem_append.1 hc with hc | hc
  · rcases List.mem_append.1 hc with hc | hc
    · exact h c (List.mem_filter.1 hc).1
    · have := mem_run hc
      omega
  · exact h c (List.mem_filter.1 hc).1

theorem lookup_isSome_mem {m : Memory} {a : Nat} {b : Byte} (h : m.read a = some b) : (a, b) ∈ m := by
  unfold Memory.read at h
  induction m with
  | nil => simp at h
  | cons c m ih =>
    obtain ⟨x, y⟩ := c
    rw [List.lookup_cons] at h
    by_cases hx : a = x
    · subst hx
      simp at h
      subst h
      exact List.mem_cons_self
    · rw [beq_eq_false_iff_ne.2 hx] at h
      exact List.mem_cons_of_mem _ (ih h)

/-- What `readBytes` answers: the bytes one by one. -/
theorem readBytes_eq_some {m : Memory} {a n : Nat} {data : List Byte} :
    m.readBytes a n = some data ↔ data.length = n ∧ ∀ i, i < n → m.read (a + i) = data[i]? := by
  induction n generalizing a data with
  | zero =>
    simp only [Memory.readBytes, Option.some.injEq, List.length_eq_zero_iff]
    constructor
    · rintro rfl; simp
    · rintro ⟨rfl, -⟩; rfl
  | succ n ih =>
    rw [Memory.readBytes]
    constructor
    · intro h
      cases hb : m.read a with
      | none => rw [hb] at h; cases h
      | some b =>
        rw [hb] at h
        simp only [Option.map_eq_some_iff] at h
        obtain ⟨rest, hr, rfl⟩ := h
        obtain ⟨hl, hi⟩ := ih.1 hr
        refine ⟨by simp [hl], fun i hin => ?_⟩
        cases i with
        | zero => simpa using hb
        | succ i =>
          rw [List.getElem?_cons_succ, ← hi i (by omega)]
          congr 1
          omega
    · rintro ⟨hl, hi⟩
      cases data with
      | nil => simp at hl
      | cons b rest =>
        have hb : m.read a = some b := by simpa using hi 0 (by omega)
        rw [hb]
        simp only [Option.map_eq_some_iff]
        refine ⟨rest, ih.2 ⟨by simpa using hl, fun i hin => ?_⟩, rfl⟩
        rw [show a + 1 + i = a + (i + 1) by omega, hi (i + 1) (by omega), List.getElem?_cons_succ]

theorem readBytes_isSome {m : Memory} {a n : Nat} :
    (m.readBytes a n).isSome = true ↔ ∀ i, i < n → (m.read (a + i)).isSome = true := by
  induction n generalizing a with
  | zero => simp [Memory.readBytes]
  | succ n ih =>
    rw [Memory.readBytes]
    constructor
    · intro h i hi
      cases hb : m.read a with
      | none => rw [hb] at h; cases h
      | some b =>
        rw [hb] at h
        simp only [Option.isSome_map] at h
        cases i with
        | zero => simp [hb]
        | succ i => rw [show a + (i + 1) = a + 1 + i by omega]; exact ih.1 h i (by omega)
    · intro h
      have h0 := h 0 (by omega)
      rw [Nat.add_zero] at h0
      cases hb : m.read a with
      | none => rw [hb] at h0; cases h0
      | some b =>
        simp only [Option.isSome_map]
        exact ih.2 fun i hi => by
          rw [show a + 1 + i = a + (i + 1) by omega]
          exact h (i + 1) (by omega)

theorem readBytes_congr {m m' : Memory} {a n : Nat} (h : ∀ i, i < n → m.read (a + i) = m'.read (a + i)) :
    m.readBytes a n = m'.readBytes a n := by
  induction n generalizing a with
  | zero => rfl
  | succ n ih =>
    have h0 := h 0 (by omega)
    rw [Nat.add_zero] at h0
    rw [Memory.readBytes, Memory.readBytes, h0, ih fun i hi => ?_]
    rw [show a + 1 + i = a + (i + 1) by omega]
    exact h (i + 1) (by omega)

end Sys2Proof.Machine
end

