-- ==== Sys2Proof/Laws/State.lean ====
section
/-! SUPPORT. One lemma for each field of the state under each shared update, so that no proof unfolds a record update. -/

namespace Sys2Proof.Machine

/-! ## `finishOk` -/

@[simp] theorem finishOk_command (s : State) (out : List Byte) (h k : Word) (p : DWord) (o : Word) :
    (finishOk s out h k p o).command = s.command := rfl

@[simp] theorem finishOk_result (s : State) (out : List Byte) (h k : Word) (p : DWord) (o : Word) :
    (finishOk s out h k p o).result = 
      { outLenLo := lowWord (BitVec.ofNat 64 out.length), outLenHi := highWord (BitVec.ofNat 64 out.length),
        rHdr := h, rKey := k, rPlenLo := lowWord p, rPlenHi := highWord p, rPoff := o } := rfl

@[simp] theorem finishOk_code (s : State) (out : List Byte) (h k : Word) (p : DWord) (o : Word) :
    (finishOk s out h k p o).code = .ok := rfl

@[simp] theorem finishOk_busy (s : State) (out : List Byte) (h k : Word) (p : DWord) (o : Word) :
    (finishOk s out h k p o).busy = false := rfl

@[simp] theorem finishOk_inBuf (s : State) (out : List Byte) (h k : Word) (p : DWord) (o : Word) :
    (finishOk s out h k p o).inBuf = s.inBuf := rfl

@[simp] theorem finishOk_outBuf (s : State) (out : List Byte) (h k : Word) (p : DWord) (o : Word) :
    (finishOk s out h k p o).outBuf = s.outBuf.writeBytes 0 out := rfl

@[simp] theorem finishOk_inCap (s : State) (out : List Byte) (h k : Word) (p : DWord) (o : Word) :
    (finishOk s out h k p o).inCap = s.inCap := rfl

@[simp] theorem finishOk_outCap (s : State) (out : List Byte) (h k : Word) (p : DWord) (o : Word) :
    (finishOk s out h k p o).outCap = s.outCap := rfl

@[simp] theorem finishOk_hostQueue (s : State) (out : List Byte) (h k : Word) (p : DWord) (o : Word) :
    (finishOk s out h k p o).hostQueue = s.hostQueue := rfl

@[simp] theorem finishOk_hostReads (s : State) (out : List Byte) (h k : Word) (p : DWord) (o : Word) :
    (finishOk s out h k p o).hostReads = s.hostReads := rfl

@[simp] theorem finishOk_turns (s : State) (out : List Byte) (h k : Word) (p : DWord) (o : Word) :
    (finishOk s out h k p o).turns = s.turns := rfl

@[simp] theorem finishOk_freeCount (s : State) (out : List Byte) (h k : Word) (p : DWord) (o : Word) :
    (finishOk s out h k p o).freeCount = s.freeCount := rfl

/-! ## `raise` -/

@[simp] theorem raise_command (s : State) (c : StatusCode) :
    (raise s c).command = s.command := rfl

@[simp] theorem raise_result (s : State) (c : StatusCode) :
    (raise s c).result = .zero := rfl

@[simp] theorem raise_code (s : State) (c : StatusCode) :
    (raise s c).code = c := rfl

@[simp] theorem raise_busy (s : State) (c : StatusCode) :
    (raise s c).busy = false := rfl

@[simp] theorem raise_inBuf (s : State) (c : StatusCode) :
    (raise s c).inBuf = s.inBuf := rfl

@[simp] theorem raise_outBuf (s : State) (c : StatusCode) :
    (raise s c).outBuf = s.outBuf := rfl

@[simp] theorem raise_inCap (s : State) (c : StatusCode) :
    (raise s c).inCap = s.inCap := rfl

@[simp] theorem raise_outCap (s : State) (c : StatusCode) :
    (raise s c).outCap = s.outCap := rfl

@[simp] theorem raise_hostQueue (s : State) (c : StatusCode) :
    (raise s c).hostQueue = s.hostQueue := rfl

@[simp] theorem raise_hostReads (s : State) (c : StatusCode) :
    (raise s c).hostReads = s.hostReads := rfl

@[simp] theorem raise_turns (s : State) (c : StatusCode) :
    (raise s c).turns = s.turns := rfl

@[simp] theorem raise_freeCount (s : State) (c : StatusCode) :
    (raise s c).freeCount = s.freeCount := rfl

/-! ## `State.recordRead` -/

@[simp] theorem recordRead_command (s : State) (v : HostValue) :
    (s.recordRead v).command = s.command := rfl

@[simp] theorem recordRead_result (s : State) (v : HostValue) :
    (s.recordRead v).result = s.result := rfl

@[simp] theorem recordRead_code (s : State) (v : HostValue) :
    (s.recordRead v).code = s.code := rfl

@[simp] theorem recordRead_busy (s : State) (v : HostValue) :
    (s.recordRead v).busy = s.busy := rfl

@[simp] theorem recordRead_inBuf (s : State) (v : HostValue) :
    (s.recordRead v).inBuf = s.inBuf := rfl

@[simp] theorem recordRead_outBuf (s : State) (v : HostValue) :
    (s.recordRead v).outBuf = s.outBuf := rfl

@[simp] theorem recordRead_inCap (s : State) (v : HostValue) :
    (s.recordRead v).inCap = s.inCap := rfl

@[simp] theorem recordRead_outCap (s : State) (v : HostValue) :
    (s.recordRead v).outCap = s.outCap := rfl

@[simp] theorem recordRead_hostQueue (s : State) (v : HostValue) :
    (s.recordRead v).hostQueue = s.hostQueue := rfl

@[simp] theorem recordRead_hostReads (s : State) (v : HostValue) :
    (s.recordRead v).hostReads = v :: s.hostReads := rfl

@[simp] theorem recordRead_turns (s : State) (v : HostValue) :
    (s.recordRead v).turns = s.turns := rfl

@[simp] theorem recordRead_freeCount (s : State) (v : HostValue) :
    (s.recordRead v).freeCount = s.freeCount := rfl

/-! ## `State.afterReset` -/

@[simp] theorem afterReset_command (s : State) :
    (s.afterReset).command = .zero := rfl

@[simp] theorem afterReset_result (s : State) :
    (s.afterReset).result = .zero := rfl

@[simp] theorem afterReset_code (s : State) :
    (s.afterReset).code = .ok := rfl

@[simp] theorem afterReset_busy (s : State) :
    (s.afterReset).busy = false := rfl

@[simp] theorem afterReset_inBuf (s : State) :
    (s.afterReset).inBuf = [] := rfl

@[simp] theorem afterReset_outBuf (s : State) :
    (s.afterReset).outBuf = [] := rfl

@[simp] theorem afterReset_inCap (s : State) :
    (s.afterReset).inCap = s.inCap := rfl

@[simp] theorem afterReset_outCap (s : State) :
    (s.afterReset).outCap = s.outCap := rfl

@[simp] theorem afterReset_hostQueue (s : State) :
    (s.afterReset).hostQueue = s.hostQueue := rfl

@[simp] theorem afterReset_hostReads (s : State) :
    (s.afterReset).hostReads = s.hostReads := rfl

@[simp] theorem afterReset_turns (s : State) :
    (s.afterReset).turns = s.turns := rfl

@[simp] theorem afterReset_freeCount (s : State) :
    (s.afterReset).freeCount = s.freeCount := rfl

/-! ## `State.countDraw` -/

@[simp] theorem countDraw_command (s : State) (b : Buffer) :
    (s.countDraw b).command = s.command := by
  unfold State.countDraw; split <;> rfl

@[simp] theorem countDraw_result (s : State) (b : Buffer) :
    (s.countDraw b).result = s.result := by
  unfold State.countDraw; split <;> rfl

@[simp] theorem countDraw_code (s : State) (b : Buffer) :
    (s.countDraw b).code = s.code := by
  unfold State.countDraw; split <;> rfl

@[simp] theorem countDraw_busy (s : State) (b : Buffer) :
    (s.countDraw b).busy = s.busy := by
  unfold State.countDraw; split <;> rfl

@[simp] theorem countDraw_inBuf (s : State) (b : Buffer) :
    (s.countDraw b).inBuf = s.inBuf := by
  unfold State.countDraw; split <;> rfl

@[simp] theorem countDraw_outBuf (s : State) (b : Buffer) :
    (s.countDraw b).outBuf = s.outBuf := by
  unfold State.countDraw; split <;> rfl

@[simp] theorem countDraw_inCap (s : State) (b : Buffer) :
    (s.countDraw b).inCap = s.inCap := by
  unfold State.countDraw; split <;> rfl

@[simp] theorem countDraw_outCap (s : State) (b : Buffer) :
    (s.countDraw b).outCap = s.outCap := by
  unfold State.countDraw; split <;> rfl

@[simp] theorem countDraw_hostQueue (s : State) (b : Buffer) :
    (s.countDraw b).hostQueue = s.hostQueue := by
  unfold State.countDraw; split <;> rfl

@[simp] theorem countDraw_hostReads (s : State) (b : Buffer) :
    (s.countDraw b).hostReads = s.hostReads := by
  unfold State.countDraw; split <;> rfl

@[simp] theorem countDraw_turns (s : State) (b : Buffer) :
    (s.countDraw b).turns = s.turns := by
  unfold State.countDraw; split <;> rfl

/-! ## `State.writeBuffer` -/

@[simp] theorem writeBuffer_command (s : State) (b : Buffer) (a : Nat) (v : Byte) :
    (s.writeBuffer b a v).command = s.command := by
  cases b <;> rfl

@[simp] theorem writeBuffer_result (s : State) (b : Buffer) (a : Nat) (v : Byte) :
    (s.writeBuffer b a v).result = s.result := by
  cases b <;> rfl

@[simp] theorem writeBuffer_code (s : State) (b : Buffer) (a : Nat) (v : Byte) :
    (s.writeBuffer b a v).code = s.code := by
  cases b <;> rfl

@[simp] theorem writeBuffer_busy (s : State) (b : Buffer) (a : Nat) (v : Byte) :
    (s.writeBuffer b a v).busy = s.busy := by
  cases b <;> rfl

@[simp] theorem writeBuffer_inCap (s : State) (b : Buffer) (a : Nat) (v : Byte) :
    (s.writeBuffer b a v).inCap = s.inCap := by
  cases b <;> rfl

@[simp] theorem writeBuffer_outCap (s : State) (b : Buffer) (a : Nat) (v : Byte) :
    (s.writeBuffer b a v).outCap = s.outCap := by
  cases b <;> rfl

@[simp] theorem writeBuffer_hostQueue (s : State) (b : Buffer) (a : Nat) (v : Byte) :
    (s.writeBuffer b a v).hostQueue = s.hostQueue := by
  cases b <;> rfl

@[simp] theorem writeBuffer_hostReads (s : State) (b : Buffer) (a : Nat) (v : Byte) :
    (s.writeBuffer b a v).hostReads = s.hostReads := by
  cases b <;> rfl

@[simp] theorem writeBuffer_turns (s : State) (b : Buffer) (a : Nat) (v : Byte) :
    (s.writeBuffer b a v).turns = s.turns := by
  cases b <;> rfl

@[simp] theorem writeBuffer_freeCount (s : State) (b : Buffer) (a : Nat) (v : Byte) :
    (s.writeBuffer b a v).freeCount = s.freeCount := by
  cases b <;> rfl

@[simp] theorem writeBuffer_buffer_self (s : State) (b : Buffer) (a : Nat) (v : Byte) :
    (s.writeBuffer b a v).buffer b = (s.buffer b).write a v := by
  cases b <;> rfl

/-- The other buffer is disjoint storage (R42). -/
theorem writeBuffer_buffer_other (s : State) {b c : Buffer} (h : c ≠ b) (a : Nat) (v : Byte) :
    (s.writeBuffer b a v).buffer c = s.buffer c := by
  cases b <;> cases c <;> first | rfl | exact absurd rfl h

/-! ## `afterTurn` -/

@[simp] theorem afterTurn_command (s : State) : s.afterTurn.command = s.command := rfl

@[simp] theorem afterTurn_result (s : State) : s.afterTurn.result = s.result := rfl

@[simp] theorem afterTurn_code (s : State) : s.afterTurn.code = s.code := rfl

@[simp] theorem afterTurn_busy (s : State) : s.afterTurn.busy = s.busy := rfl

@[simp] theorem afterTurn_inBuf (s : State) : s.afterTurn.inBuf = s.inBuf := rfl

@[simp] theorem afterTurn_outBuf (s : State) : s.afterTurn.outBuf = s.outBuf := rfl

@[simp] theorem afterTurn_inCap (s : State) : s.afterTurn.inCap = s.inCap := rfl

@[simp] theorem afterTurn_outCap (s : State) : s.afterTurn.outCap = s.outCap := rfl

@[simp] theorem afterTurn_hostQueue (s : State) : s.afterTurn.hostQueue = s.hostQueue := rfl

@[simp] theorem afterTurn_hostReads (s : State) : s.afterTurn.hostReads = s.hostReads := rfl

@[simp] theorem afterTurn_freeCount (s : State) : s.afterTurn.freeCount = s.freeCount := rfl

@[simp] theorem afterTurn_turns (s : State) : s.afterTurn.turns = s.turns.tail := rfl

end Sys2Proof.Machine
end

