-- ==== Sys2Proof/Laws/Commands.lean ====
section
/-! SUPPORT. What each meaning can answer, said once: the next states with the conditions under which they come. -/

namespace Sys2Proof.Machine

theorem withInput_eq_next {s t : State} {n : Nat} {k : List Byte → State} :
    withInput s n k = .next t ↔ ∃ data, s.inBuf.readBytes 0 n = some data ∧ t = k data := by
  unfold withInput
  cases s.inBuf.readBytes 0 n with
  | none => simp
  | some data => simp [eq_comm]

theorem withInput_of_readBytes {s : State} {n : Nat} {data : List Byte} (h : s.inBuf.readBytes 0 n = some data)
    (k : List Byte → State) : withInput s n k = .next (k data) := by
  rw [withInput, h]

theorem execMask_next {s t : State} (h : execMask s = .next t) :
    (s.inCap < s.inLen.toNat ∧ t = raise s .badCommand) ∨
    (s.inLen.toNat ≤ s.inCap ∧ s.keyLength ≠ 4 ∧ t = raise s .invalidMaskKey) ∨
    (s.inLen.toNat ≤ s.inCap ∧ s.keyLength = 4 ∧ s.outCap < s.inLen.toNat ∧ t = raise s .allocationFailure) ∨
    (s.inLen.toNat ≤ s.inCap ∧ s.keyLength = 4 ∧ s.inLen.toNat ≤ s.outCap ∧
      ∃ data, s.inBuf.readBytes 0 s.inLen.toNat = some data ∧ t = finishOk s (maskf data s.keyBytes)) := by
  unfold execMask at h
  simp only at h
  split at h
  · exact .inl ⟨by omega, by simpa using h.symm⟩
  · split at h
    · exact .inr (.inl ⟨by omega, ‹_›, by simpa using h.symm⟩)
    · split at h
      · exact .inr (.inr (.inl ⟨by omega, by omega, by omega, by simpa using h.symm⟩))
      · exact .inr (.inr (.inr ⟨by omega, by omega, by omega, withInput_eq_next.1 h⟩))

theorem execHdrDecode_next {s t : State} (h : execHdrDecode s = .next t) :
    (s.inCap < s.inLen.toNat ∧ t = raise s .badCommand) ∨
    (s.inLen.toNat ≤ s.inCap ∧ ∃ data, s.inBuf.readBytes 0 (min s.inLen.toNat 14) = some data ∧
      ((hdrDecode data = none ∧ t = raise s .truncatedFrame) ∨
        ∃ h, hdrDecode data = some h ∧ t = finishDecoded s [] h)) := by
  unfold execHdrDecode at h
  simp only at h
  split at h
  · exact .inl ⟨by omega, by simpa using h.symm⟩
  · obtain ⟨data, hd, rfl⟩ := withInput_eq_next.1 h
    refine .inr ⟨by omega, data, hd, ?_⟩
    cases hh : hdrDecode data with
    | none => exact .inl ⟨rfl, rfl⟩
    | some hdr => exact .inr ⟨hdr, rfl, rfl⟩

theorem execBuild_next {s t : State} (h : execBuild s = .next t) :
    (s.inCap < s.inLen.toNat ∧ t = raise s .badCommand) ∨
    (s.inLen.toNat ≤ s.inCap ∧ s.keyLength ≠ 0 ∧ s.keyLength ≠ 4 ∧ t = raise s .invalidMaskKey) ∨
    (s.inLen.toNat ≤ s.inCap ∧ (s.keyLength = 0 ∨ s.keyLength = 4) ∧ s.outCap < frameTotal (s.keyLength == 4) s.inLen ∧
      t = raise s .allocationFailure) ∨
    (s.inLen.toNat ≤ s.inCap ∧ (s.keyLength = 0 ∨ s.keyLength = 4) ∧ frameTotal (s.keyLength == 4) s.inLen ≤ s.outCap ∧
      ∃ payload, s.inBuf.readBytes 0 s.inLen.toNat = some payload ∧
        t = finishOk s (buildFrame s.frameFlags (s.keyLength == 4) s.keyBytes payload s.inLen)) := by
  unfold execBuild at h
  simp only at h
  split at h
  · exact .inl ⟨by omega, by simpa using h.symm⟩
  · split at h
    · next hk => exact .inr (.inl ⟨by omega, hk.1, hk.2, by simpa using h.symm⟩)
    · split at h
      · exact .inr (.inr (.inl ⟨by omega, by omega, by omega, by simpa using h.symm⟩))
      · exact .inr (.inr (.inr ⟨by omega, by omega, by omega, withInput_eq_next.1 h⟩))

theorem execParse_next {s t : State} {autoUnmask : Bool} (h : execParse autoUnmask s = .next t) :
    (s.inCap < s.inLen.toNat ∧ t = raise s .badCommand) ∨
    (s.inLen.toNat ≤ s.inCap ∧ ∃ data, s.inBuf.readBytes 0 s.inLen.toNat = some data ∧
      ((hdrDecode data = none ∧ t = raise s .truncatedFrame) ∨
        ∃ h, hdrDecode data = some h ∧
          ((h.poff + h.plen.toNat ≠ data.length ∧ t = raise s .lengthMismatch) ∨
            (h.poff + h.plen.toNat = data.length ∧ s.outCap < h.plen.toNat ∧ t = raise s .allocationFailure) ∨
            (h.poff + h.plen.toNat = data.length ∧ h.plen.toNat ≤ s.outCap ∧
              t = finishDecoded s (parsedPayload autoUnmask h data) h)))) := by
  unfold execParse at h
  simp only at h
  split at h
  · exact .inl ⟨by omega, by simpa using h.symm⟩
  · obtain ⟨data, hd, rfl⟩ := withInput_eq_next.1 h
    refine .inr ⟨by omega, data, hd, ?_⟩
    unfold parseInput
    cases hh : hdrDecode data with
    | none => exact .inl ⟨rfl, rfl⟩
    | some hdr =>
      refine .inr ⟨hdr, rfl, ?_⟩
      simp only
      split
      · exact .inl ⟨‹_›, rfl⟩
      · split
        · exact .inr (.inl ⟨by omega, by omega, rfl⟩)
        · exact .inr (.inr ⟨by omega, by omega, rfl⟩)

/-- Every next state of every instruction is an error completion or an OK completion of its state (R112, R113). -/
theorem exec_next_shape {i : Instr} {s t : State} (h : exec i s = .next t) :
    (∃ c, c ≠ StatusCode.ok ∧ t = raise s c) ∨ ∃ out rHdr rKey rPlen rPoff, t = finishOk s out rHdr rKey rPlen rPoff := by
  cases i with
  | mask =>
    rcases execMask_next h with ⟨-, rfl⟩ | ⟨-, -, rfl⟩ | ⟨-, -, -, rfl⟩ | ⟨-, -, -, data, -, rfl⟩
    · exact .inl ⟨_, by decide, rfl⟩
    · exact .inl ⟨_, by decide, rfl⟩
    · exact .inl ⟨_, by decide, rfl⟩
    · exact .inr ⟨_, _, _, _, _, rfl⟩
  | hdrEncode => exact .inr ⟨_, _, _, _, _, (Host.Outcome.next.inj h).symm⟩
  | hdrDecode =>
    rcases execHdrDecode_next h with ⟨-, rfl⟩ | ⟨-, data, -, ⟨-, rfl⟩ | ⟨hdr, -, rfl⟩⟩
    · exact .inl ⟨_, by decide, rfl⟩
    · exact .inl ⟨_, by decide, rfl⟩
    · exact .inr ⟨_, _, _, _, _, rfl⟩
  | build =>
    rcases execBuild_next h with ⟨-, rfl⟩ | ⟨-, -, -, rfl⟩ | ⟨-, -, -, rfl⟩ | ⟨-, -, -, data, -, rfl⟩
    · exact .inl ⟨_, by decide, rfl⟩
    · exact .inl ⟨_, by decide, rfl⟩
    · exact .inl ⟨_, by decide, rfl⟩
    · exact .inr ⟨_, _, _, _, _, rfl⟩
  | parse autoUnmask =>
    rcases execParse_next h with ⟨-, rfl⟩ | ⟨-, data, -, ⟨-, rfl⟩ | ⟨hdr, -, ⟨-, rfl⟩ | ⟨-, -, rfl⟩ | ⟨-, -, rfl⟩⟩⟩
    · exact .inl ⟨_, by decide, rfl⟩
    · exact .inl ⟨_, by decide, rfl⟩
    · exact .inl ⟨_, by decide, rfl⟩
    · exact .inl ⟨_, by decide, rfl⟩
    · exact .inr ⟨_, _, _, _, _, rfl⟩
  | reservedOp0 => exact .inl ⟨_, by decide, (Host.Outcome.next.inj h).symm⟩
  | reservedOp6 => exact .inl ⟨_, by decide, (Host.Outcome.next.inj h).symm⟩
  | reservedOp7 => exact .inl ⟨_, by decide, (Host.Outcome.next.inj h).symm⟩
  | frameLen7 flags marker key => exact .inr ⟨_, _, _, _, _, (Host.Outcome.next.inj h).symm⟩
  | frameLen16 flags length key => exact .inr ⟨_, _, _, _, _, (Host.Outcome.next.inj h).symm⟩
  | frameLen64 flags length key => exact .inr ⟨_, _, _, _, _, (Host.Outcome.next.inj h).symm⟩

end Sys2Proof.Machine
end

