-- ==== Sys2Proof/Laws/Header.lean ====
section
/-! SUPPORT. The small facts of the header codec, the masking function and the OK completion, which the provers cite
instead of unfolding them. -/

namespace Sys2Proof.Machine

/-! ## Completion -/

@[simp] theorem finishOk_outLen (s : State) (out : List Byte) (h k : Word) (p : DWord) (o : Word) :
    (finishOk s out h k p o).outLen = BitVec.ofNat 64 out.length := by
  simp [State.outLen]

@[simp] theorem finishOk_rPlen (s : State) (out : List Byte) (h k : Word) (p : DWord) (o : Word) :
    (finishOk s out h k p o).rPlen = p := by
  simp [State.rPlen]

@[simp] theorem raise_outLen (s : State) (c : StatusCode) : (raise s c).outLen = 0 := by
  simp [State.outLen, ResultRegs.zero, joinWords]

@[simp] theorem raise_rPlen (s : State) (c : StatusCode) : (raise s c).rPlen = 0 := by
  simp [State.rPlen, ResultRegs.zero, joinWords]

/-- A completion that writes no byte leaves OUT_BUF as it is, as data. -/
@[simp] theorem writeBytes_nil (m : Memory) : m.writeBytes 0 [] = m := by
  simp [Memory.writeBytes, Memory.run]

/-! ## Byte sequences -/

theorem slice_length {l : List Byte} {a b : Nat} (h : b ≤ l.length) : (slice l a b).length = b - a := by
  unfold slice; simp; omega

theorem slice_getElem? (l : List Byte) (a b i : Nat) : (slice l a b)[i]? = if a + i < b then l[a + i]? else none := by
  unfold slice
  rw [List.getElem?_drop, List.getElem?_take]

theorem beval_lt (l : List Byte) : beval l < 256 ^ l.length := by
  have : ∀ (l : List Byte) acc n, acc < 256 ^ n →
      l.foldl (fun acc b => acc * 256 + b.toNat) acc < 256 ^ (n + l.length) := by
    intro l
    induction l with
    | nil => intro acc n h; simpa
    | cons b l ih =>
      intro acc n h
      rw [List.foldl_cons, List.length_cons, show n + (l.length + 1) = n + 1 + l.length by omega]
      apply ih
      have := b.isLt
      rw [Nat.pow_succ]; omega
  have h := this l 0 0 (by simp)
  rwa [Nat.zero_add] at h

/-! ## Header fields as numbers -/

theorem marker_eq_mod (b : Byte) : (b.extractLsb' 0 7).toNat = b.toNat % 128 := by revert b; decide

theorem masked_eq_decide (b : Byte) : b.getLsbD 7 = decide (128 ≤ b.toNat) := by revert b; decide

theorem headerWord_toNat (f : FrameFlags) (m : Bool) (k : BitVec 7) :
    (headerWord f m k).toNat = (frameByte1 m k).toNat * 256 + f.byte0.toNat := by
  unfold headerWord
  rw [BitVec.toNat_append, BitVec.toNat_append]
  have h2 := f.byte0.isLt
  simp only [BitVec.toNat_ofNat, Nat.zero_shiftLeft, Nat.zero_mod, Nat.zero_or]
  rw [← Nat.shiftLeft_add_eq_or_of_lt h2, Nat.shiftLeft_eq]

theorem byte0_frameFlags (s : State) : s.frameFlags.byte0 = s.command.flags.extractLsb' 0 8 := by
  have h := byte0_ofByte0 (s.command.flags.extractLsb' 0 8)
  rw [← h]
  congr 1
  unfold State.frameFlags FrameFlags.ofByte0
  have : (BitVec.extractLsb' 0 4 (BitVec.extractLsb' 0 8 s.command.flags)) = BitVec.extractLsb' 0 4 s.command.flags := by
    apply BitVec.eq_of_getLsbD_eq; intro i hi; simp [hi]; try omega
  rw [this]
  simp

/-! ## The encode side -/

theorem lengthMarker_toNat (p : DWord) :
    (lengthMarker p).toNat = if p.toNat ≤ 125 then p.toNat else if p.toNat ≤ 65535 then 126 else 127 := by
  unfold lengthMarker
  split
  · simp; omega
  · split <;> rfl

theorem headerLength_eq (p : DWord) :
    headerLength p = if p.toNat ≤ 125 then 2 else if p.toNat ≤ 65535 then 4 else 10 := by
  unfold headerLength lengthExt
  split; rfl; split <;> rfl

theorem hdrEncode_length (f : FrameFlags) (m : Bool) (p : DWord) : (hdrEncode f m p).length = headerLength p := by
  simp [hdrEncode, headerLength]; omega

theorem headerLength_bounds (p : DWord) : 2 ≤ headerLength p ∧ headerLength p ≤ 10 := by
  rw [headerLength_eq]; split; omega; split <;> omega

/-! ## The masking function -/

@[simp] theorem maskFrom_length (key : List Byte) (i : Nat) (d : List Byte) : (maskFrom key i d).length = d.length := by
  induction d generalizing i with
  | nil => rfl
  | cons b d ih => simp [maskFrom, ih]

theorem maskFrom_append (key : List Byte) (i : Nat) (a b : List Byte) :
    maskFrom key i (a ++ b) = maskFrom key i a ++ maskFrom key (i + a.length) b := by
  induction a generalizing i with
  | nil => rfl
  | cons x a ih => simp [maskFrom, ih, show i + 1 + a.length = i + (a.length + 1) by omega]

theorem buildFrame_eq (f : FrameFlags) (m : Bool) (k p : List Byte) (n : DWord) :
    buildFrame f m k p n = hdrEncode f m n ++ (if m then k ++ maskf p k else p) := by
  cases m <;> simp [buildFrame]

theorem buildFrame_length (f : FrameFlags) (m : Bool) (k p : List Byte) (n : DWord) (hk : k.length = 4)
    (hp : p.length = n.toNat) : (buildFrame f m k p n).length = frameTotal m n := by
  cases m <;> (simp [buildFrame, frameTotal, hdrEncode_length, maskf, hk, hp]; try omega)

/-! ## The result of `hdr_decode` -/

theorem declaredLength_some {buf : List Byte} {marker : BitVec 7} {p : DWord} {off : Nat} (hb : 2 ≤ buf.length)
    (hd : declaredLength buf marker = some (p, off)) : (off = 2 ∨ off = 4 ∨ off = 10) ∧ off ≤ buf.length := by
  unfold declaredLength at hd
  split at hd
  · cases hd; omega
  · split at hd
    · split at hd
      · cases hd
      · cases hd; omega
    · split at hd
      · cases hd
      · cases hd; omega

/-- What a header that decodes says of its own shape: the payload offset is one of the six that R37 lists and lies inside
the buffer, and the key has four bytes (R87, R88). -/
theorem hdrDecode_shape {buf : List Byte} {h : Header} (hd : hdrDecode buf = some h) :
    h.poff ∈ [2, 4, 6, 8, 10, 14] ∧ h.poff ≤ buf.length ∧ h.key.length = 4 := by
  unfold hdrDecode at hd
  split at hd
  · cases hd
  · simp only at hd
    split at hd
    · cases hd
    · next hl =>
      have := declaredLength_some (by omega) hl
      split at hd
      · split at hd
        · cases hd
        · cases hd
          refine ⟨?_, by simp only; omega, by rw [slice_length (by omega)]; omega⟩
          rcases this.1 with rfl | rfl | rfl <;> simp
      · cases hd
        refine ⟨?_, this.2, rfl⟩
        rcases this.1 with rfl | rfl | rfl <;> simp

theorem parsedPayload_length (autoUnmask : Bool) (h : Header) (d : List Byte) :
    (parsedPayload autoUnmask h d).length = d.length - h.poff := by
  unfold parsedPayload
  simp only
  split <;> simp [maskf, slice_length]

end Sys2Proof.Machine
end

