-- ==== Sys2Proof/Laws/PerInstr.lean ====
section
/-! SUPPORT. Facts proved once for each constructor of `Instr`. -/

namespace Sys2Proof.Laws.EncodeShape

/-- What an encoding looks like: a command word with every reserved bit 0 (R25), or a frame header of 2 to 14 bytes
(R67). -/
def Statement (i : Instr) : Prop :=
  match encode i with
  | .command w => w &&& ~~~0x00000107#32 = 0
  | .frame bytes => 2 ≤ bytes.length ∧ bytes.length ≤ longestHeader

theorem mask : Statement .mask := show _ &&& _ = _ by decide

theorem hdrEncode : Statement .hdrEncode := show _ &&& _ = _ by decide

theorem hdrDecode : Statement .hdrDecode := show _ &&& _ = _ by decide

theorem build : Statement .build := show _ &&& _ = _ by decide

theorem parse (autoUnmask : Bool) : Statement (.parse autoUnmask) := by
  cases autoUnmask <;> exact show _ &&& _ = _ by decide

theorem reservedOp0 : Statement .reservedOp0 := show _ &&& _ = _ by decide

theorem reservedOp6 : Statement .reservedOp6 := show _ &&& _ = _ by decide

theorem reservedOp7 : Statement .reservedOp7 := show _ &&& _ = _ by decide

theorem frameLen7 (flags : FrameFlags) (marker : BitVec 7) (key : Option Word) :
    Statement (.frameLen7 flags marker key) := by
  cases key <;> simp [Statement, encode, keyField, longestHeader]

theorem frameLen16 (flags : FrameFlags) (length : BitVec 16) (key : Option Word) :
    Statement (.frameLen16 flags length key) := by
  cases key <;> simp [Statement, encode, keyField, longestHeader]

theorem frameLen64 (flags : FrameFlags) (length : BitVec 64) (key : Option Word) :
    Statement (.frameLen64 flags length key) := by
  cases key <;> simp [Statement, encode, keyField, longestHeader]

end Sys2Proof.Laws.EncodeShape
end

