-- ==== Sys2Proof/Laws/Run.lean ====
section
/-! SUPPORT. What a step is at each agent's turn, and how runs are put together. -/

namespace Sys2Proof.Machine

theorem turn_of_turns_nil {s : State} (h : s.turns = []) : s.turn = if s.busy then .engine else .host := by
  rw [State.turn, h]

theorem turn_of_turns_cons {s : State} {agent : Agent} {later : List Agent} (h : s.turns = agent :: later) :
    s.turn = agent := by
  rw [State.turn, h]

theorem step_of_host {s : State} (h : s.turn = .host) : step s = hostTurn s.afterTurn := by
  rw [step, h]

theorem step_of_engine {s : State} (h : s.turn = .engine) : step s = engineTurn s.afterTurn := by
  rw [step, h]

theorem run_of_step_next {s t : State} (h : step s = .next t) (k : Nat) :
    Host.Core.run Sys2Proof.core (k + 1) s = Host.Core.run Sys2Proof.core k t := by
  have h' : Sys2Proof.core.step s = .next t := h
  refine (Host.Core.run.eq_2 Sys2Proof.core s k).trans ?_
  rw [h']

/-- A run that reaches `t` goes on from `t`. -/
theorem run_add {k l : Nat} {s t : State} (h : Host.Core.run Sys2Proof.core k s = .next t) :
    Host.Core.run Sys2Proof.core (k + l) s = Host.Core.run Sys2Proof.core l t := by
  induction k generalizing s with
  | zero => cases h; rw [Nat.zero_add]
  | succ k ih =>
    have hr := Host.Core.run.eq_2 Sys2Proof.core s k
    cases hs : Sys2Proof.core.step s with
    | next u =>
      rw [Nat.add_right_comm, run_of_step_next hs]
      exact ih ((run_of_step_next hs k).symm.trans h)
    | fault r => rw [hs] at hr; cases hr.symm.trans h
    | refused r => rw [hs] at hr; cases hr.symm.trans h

end Sys2Proof.Machine
end

