-- ==== Sys2Proof/Tests/Slice0.lean ====
section
/-! SUPPORT. The model's own tests. Expected results are the vectors of `95_test_vectors.md` (named M1, E2, … there) and
words written out by hand from `30_encoding.md`; then one witness for each statement that has hypotheses. -/

namespace Sys2Proof.Tests

open Sys2Proof Sys2Proof.Machine

/-! ## Small states -/

/-- The command in flight, about to complete: CMD, FLAGS, KEY, KEY_LEN, IN_LEN, the first bytes of IN_BUF. -/
def engine (cmd flags key keyLen : Word) (n : Nat) (bytes : List Byte) (inCap outCap : Nat) : State :=
  { State.resetWith inCap outCap with
    command :=
      { CommandRegs.zero with
        cmd := cmd, flags := flags, key := key, keyLen := keyLen, inLenLo := BitVec.ofNat 32 n }
    inBuf := Memory.run 0 bytes
    busy := true }

/-- The same with the default capacities of `95_test_vectors.md`. -/
def ready (cmd flags key keyLen : Word) (bytes : List Byte) : State :=
  engine cmd flags key keyLen bytes.length bytes 131072 131072

/-- HDR_ENCODE of a payload length in flight. -/
def encoder (flags plenHi plenLo : Word) : State :=
  { engine 2 flags 0 0 0 [] 131072 131072 with
    command := { CommandRegs.zero with cmd := 2, flags := flags, plenHi := plenHi, plenLo := plenLo } }

/-- No command in flight and these operations of the host to come. -/
def withHost (s : State) (ops : List HostOp) : State :=
  { s with busy := false, hostQueue := ops }

/-- A command in flight with three turns of the host before its completion. -/
def busyHost (s : State) (ops : List HostOp) : State :=
  { s with busy := true, hostQueue := ops, turns := [.host, .host, .host] }

/-- What a completion leaves for the host to see. -/
structure Seen where
  code   : StatusCode
  out    : List Byte
  outLen : Nat
  rHdr   : Nat
  rKey   : Nat
  rPlen  : Nat
  rPoff  : Nat
  deriving DecidableEq, Repr

/-- STATUS.CODE, the OUT_BUF bytes, OUT_LEN, R_HDR, R_KEY, R_PLEN and R_POFF after a completion. -/
def seen : Machine.Outcome → Option Seen
  | .next t =>
    some ⟨t.code, t.outBuf.map (·.2), t.outLen.toNat, t.result.rHdr.toNat, t.result.rKey.toNat, t.rPlen.toNat,
      t.result.rPoff.toNat⟩
  | _ => none

/-- An error as the host sees it: its code, nothing written, every result 0 (R113). -/
def seenError (c : StatusCode) : Option Seen :=
  some ⟨c, [], 0, 0, 0, 0, 0⟩

/-- What the host read last. -/
def lastRead : Machine.Outcome → Option HostValue
  | .next t => t.hostReads.head?
  | _ => none

/-- The flags of byte 0x81 and of byte 0x82: FIN and an opcode. -/
def text : FrameFlags := ⟨true, false, false, false, 1⟩
def binary : FrameFlags := ⟨true, false, false, false, 2⟩

/-! ## WellFormed: each check refuses an ill-formed term (R66) -/

theorem test_literal_marker_126_is_ill_formed : Instr.wellFormed (.frameLen7 text 126 none) = false := by decide

theorem test_literal_marker_127_is_ill_formed : Instr.wellFormed (.frameLen7 text 127 (some 1)) = false := by decide

theorem test_literal_marker_125_is_well_formed : Instr.wellFormed (.frameLen7 text 125 none) = true := by decide

/-! ## Decoding: words written out bit by bit from R25, R61 and R64 to R67 -/

theorem test_decode_mask : decodeCommand 0b00000000000000000000000000000001#32 = .mask := by decide

theorem test_decode_hdrEncode : decodeCommand 0b00000000000000000000000000000010#32 = .hdrEncode := by decide

theorem test_decode_hdrDecode : decodeCommand 0b00000000000000000000000000000011#32 = .hdrDecode := by decide

theorem test_decode_build : decodeCommand 0b00000000000000000000000000000100#32 = .build := by decide

theorem test_decode_parse : decodeCommand 0b00000000000000000000000000000101#32 = .parse false := by decide

theorem test_decode_parse_unmask : decodeCommand 0b00000000000000000000000100000101#32 = .parse true := by decide

theorem test_decode_reservedOp0 : decodeCommand 0b00000000000000000000000000000000#32 = .reservedOp0 := by decide

theorem test_decode_reservedOp6 : decodeCommand 0b00000000000000000000000000000110#32 = .reservedOp6 := by decide

theorem test_decode_reservedOp7 : decodeCommand 0b00000000000000000000000000000111#32 = .reservedOp7 := by decide

/-- Byte 0 is F A B C and the opcode, byte 1 is M and the marker 125. -/
theorem test_decode_frameLen7 : decodeFrame [0b01011010#8, 0b01111101#8, 0x7F] =
    .ok (.frameLen7 ⟨false, true, false, true, 10⟩ 125 none, [0x7F]) := by rfl

/-- Marker 126, length 0x0100, then the key. -/
theorem test_decode_frameLen16 : decodeFrame [0b10000010#8, 0b11111110#8, 0x01, 0x00, 0x12, 0x34, 0x56, 0x78] =
    .ok (.frameLen16 binary 256 (some 0x12345678), []) := by rfl

/-- Marker 127, an 8-byte length with bit 63 set (D9, R73). -/
theorem test_decode_frameLen64 : decodeFrame [0b00000010#8, 0b01111111#8, 0x80, 0, 0, 0, 0, 0, 0, 0x01] =
    .ok (.frameLen64 ⟨false, false, false, false, 2⟩ 0x8000000000000001 none, []) := by rfl

/-- R87 a, b and c (D3, D4, D6). -/
theorem test_decode_truncated : decodeFrame [0x81] = .error .shortHeader ∧
    decodeFrame [0x82, 0x7E, 0x01] = .error .shortLength ∧
    decodeFrame [0x82, 0xFE, 0x01, 0x00, 0x12, 0x34, 0x56] = .error .shortKey := ⟨rfl, rfl, rfl⟩

/-- The table's numbering: byte 0 in bits 15:8 of a wire row (log 9). -/
theorem test_decode_table_words : decodeTableWord 32 5 = some (.parse false) ∧
    decodeTableWord 16 0x817D = some (.frameLen7 text 125 none) ∧
    decodeTableWord 16 0x82FE = some (.frameLen16 binary 0 (some 0)) ∧
    decodeTableWord 16 0x007F = some (.frameLen64 ⟨false, false, false, false, 0⟩ 0 none) := by decide

/-- A placed word is the next thing that runs (log 10). -/
theorem test_fetch_command : step (State.reset.withFetchWord 32 1) = exec .mask (State.reset.withFetchWord 32 1) := rfl

theorem test_fetch_frame : seen (step (State.reset.withFetchWord 16 0x82FE)) =
    some ⟨.ok, [], 0, 0xFE82, 0, 0, 8⟩ := by decide

/-! ## The instructions, on the vectors of `95_test_vectors.md` -/

/-- M4. -/
theorem test_mask_M4 : seen (step (ready 1 0 0x0FF000FF 4 [0xFF, 0xFF, 0xFF, 0xFF, 0xFF])) =
    some ⟨.ok, [0xF0, 0x0F, 0xFF, 0x00, 0xF0], 5, 0, 0, 0, 0⟩ := by decide

/-- M9: the key check comes before the allocation check. -/
theorem test_mask_M9 : seen (step (engine 1 0 0x12345678 3 20 (List.replicate 20 0) 131072 16)) =
    seenError .invalidMaskKey := by decide

/-- E6. -/
theorem test_hdrEncode_E6 : seen (step (encoder 0x82 0 65536)) =
    some ⟨.ok, [0x82, 0x7F, 0, 0, 0, 0, 0, 1, 0, 0], 10, 0, 0, 0, 0⟩ := by decide

/-- E8: all flags, masked, and no key byte. -/
theorem test_hdrEncode_E8 : seen (step (encoder 0x80FF 0 2)) = some ⟨.ok, [0xFF, 0x82], 2, 0, 0, 0, 0⟩ := by decide

/-- D9. -/
theorem test_hdrDecode_D9 : seen (step (ready 3 0 0 0 [0x02, 0x7F, 0x80, 0, 0, 0, 0, 0, 0, 0])) =
    some ⟨.ok, [], 0, 0x7F02, 0, 2 ^ 63, 10⟩ := by decide

/-- D6: the key is not whole. -/
theorem test_hdrDecode_D6 : seen (step (ready 3 0 0 0 [0x82, 0xFE, 0x01, 0x00, 0x12, 0x34, 0x56])) =
    seenError .truncatedFrame := by decide

/-- B12: FLAGS.MASKED is not read, the RSV bits pass. -/
theorem test_build_B12 : seen (step (ready 4 0x80F1 0x12345678 4 [0x41, 0x42])) =
    some ⟨.ok, [0xF1, 0x82, 0x12, 0x34, 0x56, 0x78, 0x53, 0x76], 8, 0, 0, 0, 0⟩ := by decide

/-- B9: total 17 is more than OUT_CAP 16. -/
theorem test_build_B9 : seen (step (engine 4 0x82 0x01020304 4 11 (List.replicate 11 0) 131072 16)) =
    seenError .allocationFailure := by decide

/-- P1. -/
theorem test_parse_P1 : seen (step (ready 0x105 0 0 0 [0x81, 0x82, 0x12, 0x34, 0x56, 0x78, 0x53, 0x76])) =
    some ⟨.ok, [0x41, 0x42], 2, 0x8281, 0x12345678, 2, 6⟩ := by decide

/-- P15: the length check comes before the allocation check. -/
theorem test_parse_P15 : seen (step (engine 0x105 0 0 0 23 ([0x82, 0x7E, 0x00, 0x14] ++ List.replicate 19 0) 131072 16)) =
    seenError .lengthMismatch := by decide

/-- P18. -/
theorem test_reserved_P18 : seen (step (ready 0 0 0 0 [])) = seenError .badCommand ∧
    seen (step (ready 6 0 0 0 [])) = seenError .badCommand ∧ seen (step (ready 7 0 0 0 [])) = seenError .badCommand := by
  decide

/-- The wire rows: D10 (literal, no key), D7 (16 bits, key), D9 (64 bits). -/
theorem test_frameLen7_D10 : seen (exec (.frameLen7 ⟨false, false, false, false, 15⟩ 5 none) State.reset) =
    some ⟨.ok, [], 0, 0x050F, 0, 5, 2⟩ := by decide

theorem test_frameLen16_D7 : seen (exec (.frameLen16 binary 256 (some 0x12345678)) State.reset) =
    some ⟨.ok, [], 0, 0xFE82, 0x12345678, 256, 8⟩ := by decide

theorem test_frameLen64_D9 : seen (exec (.frameLen64 ⟨false, false, false, false, 2⟩ 0x8000000000000000 none) State.reset) =
    some ⟨.ok, [], 0, 0x7F02, 0, 2 ^ 63, 10⟩ := by decide

/-! ## The host -/

/-- E10: bits 14:8 of FLAGS ignore the write (R24). -/
theorem test_host_flags_E10 : (match step (withHost State.reset [hostWr .flags 0x7F82]) with
    | .next t => some t.command.flags
    | _ => none) = some 0x82 := by decide

/-- R32: STATUS during BUSY has bit 31 and the previous CODE. -/
theorem test_host_status_busy : lastRead (step (busyHost { State.reset with code := .badCommand } [hostRd .status])) =
    some (.word 0x80000005) := by decide

/-! ## Witnesses: states and operands that meet all hypotheses of a statement -/

/-- BUILD of S1 in flight. -/
abbrev s1 : State := ready 4 0x81 0x12345678 4 [0x41, 0x42]

/-- The same with the host still to go. -/
abbrev s1Busy (op : HostOp) : State := busyHost s1 [op]

/-- The same before its START. -/
abbrev s1Idle (op : HostOp) : State := withHost s1 [op]

theorem witness_ResetMeetsInvariant : 0 ≤ 2 ^ 64 - 1 ∧ 2 ^ 64 - 1 ≤ 2 ^ 64 - 1 ∧ 14 ≤ 14 := by decide

theorem witness_EveryStepKeepsInvariant : s1.Inv ∧ ∃ t, step s1 = .next t := ⟨by decide, _, rfl⟩

theorem witness_StepCompletesTheDecodedCommand :
    s1.CompletionNext ∧ s1.command.cmd = 4 ∧ decode (.command 4) = .ok (.build, []) := ⟨⟨rfl, rfl⟩, rfl, rfl⟩

theorem witness_StepRunsTheHeaderInTheInputBuffer :
    let s := ready 3 0 0 0 [0x81, 0x7D, 0x41];
    Instr.wellFormed (.frameLen7 text 125 none) = true ∧ encode (.frameLen7 text 125 none) = .frame [0x81, 0x7D] ∧
      s.CompletionNext ∧ s.selected = .hdrDecode ∧ s.inLen.toNat ≤ s.inCap ∧
      s.inBuf.readBytes 0 s.inLen.toNat = some ([0x81, 0x7D] ++ [0x41]) :=
  ⟨by decide, by decide, ⟨rfl, rfl⟩, by decide, by decide, by decide⟩

theorem witness_HostOperationsTakeEffectInOrder :
    (s1Busy .wait).HostNext .wait [] ∧ (s1Idle .wait).HostNext .wait [] := ⟨⟨rfl, by decide⟩, ⟨rfl, by decide⟩⟩

theorem witness_IdleEngineKeepsEverything : State.reset.busy = false ∧ State.reset.hostQueue = [] := ⟨rfl, rfl⟩

theorem witness_DecodeInvertsEncode :
    Instr.wellFormed (.frameLen7 text 125 none) = true ∧ Instr.wellFormed (.parse true) = true ∧
      Instr.wellFormed (.frameLen64 text 0xFFFFFFFFFFFFFFFF (some 1)) = true := by decide

theorem witness_EncodeInvertsFrameDecode :
    decodeFrame [0x82, 0x7E, 0xFF, 0xFF, 0x05] = .ok (.frameLen16 binary 65535 none, [0x05]) := rfl

theorem witness_CommandIsSelectedByOpAlone :
    (0xFFFFFFF9 : Word).extractLsb' 0 3 = 1 ∧ (0x2 : Word).extractLsb' 0 3 = 2 ∧ (0x3 : Word).extractLsb' 0 3 = 3 ∧
    (0xFFFFFFFC : Word).extractLsb' 0 3 = 4 ∧ (0x105 : Word).extractLsb' 0 3 = 5 ∧ (0x8 : Word).extractLsb' 0 3 = 0 ∧
    (0x6 : Word).extractLsb' 0 3 = 6 ∧ (0xFFFFFFFF : Word).extractLsb' 0 3 = 7 := by decide

/-- M10; M6; M8 at OUT_CAP = IN_LEN - 1; M1 at IN_CAP = OUT_CAP = IN_LEN. -/
theorem witness_MaskXorsInputWithRepeatingKey :
    (let s := engine 1 0 0 3 17 (List.replicate 16 0) 16 16; s.inCap < s.inLen.toNat) ∧
    (let s := engine 1 0 0 3 2 [0x41, 0x42] 2 16; s.inLen.toNat ≤ s.inCap ∧ s.keyLength ≠ 4) ∧
    (let s := engine 1 0 0 4 17 (List.replicate 17 0) 17 16;
      s.inLen.toNat ≤ s.inCap ∧ s.keyLength = 4 ∧ s.outCap < s.inLen.toNat) ∧
    (let s := engine 1 0 0x12345678 4 14 (List.replicate 14 7) 14 14;
      s.inLen.toNat ≤ s.inCap ∧ s.keyLength = 4 ∧ s.inLen.toNat ≤ s.outCap ∧
        ∀ i < s.inLen.toNat, (s.inBuf.read i).isSome = true) := by decide

/-- IN_LEN = IN_CAP + 1; IN_LEN = 1 (D3); one byte less than the header (D6); exactly the header (D7). -/
theorem witness_HdrDecodeReportsHeaderFields :
    (let s := engine 3 0 0 0 3 [0x81, 0x00] 2 14; s.inCap < s.inLen.toNat) ∧
    (let s := ready 3 0 0 0 [0x81];
      s.inLen.toNat ≤ s.inCap ∧ s.inBuf.readBytes 0 (min s.inLen.toNat 14) = some [0x81] ∧ s.inLen.toNat < 2) ∧
    (let d := [0x82, 0xFE, 0x01, 0x00, 0x12, 0x34, 0x56];
      let s := ready 3 0 0 0 d;
      s.inLen.toNat ≤ s.inCap ∧ s.inBuf.readBytes 0 (min s.inLen.toNat 14) = some d ∧ s.inLen.toNat < 4 + 4) ∧
    (let d := [0x82, 0xFE, 0x01, 0x00, 0x12, 0x34, 0x56, 0x78];
      let s := ready 3 0 0 0 d;
      s.inLen.toNat ≤ s.inCap ∧ s.inBuf.readBytes 0 (min s.inLen.toNat 14) = some d ∧ 2 ≤ s.inLen.toNat ∧
        (if 128 ≤ (d.getD 1 0).toNat then wireHeaderLength ((d.getD 1 0).toNat % 128) + 4 else 2) ≤ s.inLen.toNat) := by
  decide

/-- IN_LEN = IN_CAP + 1; B3; B9 at total = OUT_CAP + 1; B11 at total = OUT_CAP. -/
theorem witness_BuildComposesTheFrame :
    (let s := engine 4 0 0 3 3 [0x41, 0x42] 2 14; s.CapsLegal ∧ s.inCap < s.inLen.toNat) ∧
    (let s := engine 4 0 0 3 2 [0x41, 0x42] 2 14;
      s.CapsLegal ∧ s.inLen.toNat ≤ s.inCap ∧ s.keyLength ≠ 0 ∧ s.keyLength ≠ 4) ∧
    (let s := engine 4 0x82 0x01020304 4 11 (List.replicate 11 0) 16 16;
      s.CapsLegal ∧ s.inLen.toNat ≤ s.inCap ∧ s.keyLength = 4 ∧ s.outCap < 2 + 4 + s.inLen.toNat) ∧
    (let s := engine 4 0x82 0x01020304 4 10 (List.replicate 10 0) 16 16;
      s.CapsLegal ∧ s.inLen.toNat ≤ s.inCap ∧ s.keyLength = 4 ∧ 2 + 4 + s.inLen.toNat ≤ s.outCap ∧
        ∀ i < s.inLen.toNat, (s.inBuf.read i).isSome = true) := by decide

/-- P17; P5; P6 (one byte short); P14 at PLEN = OUT_CAP + 1; PLEN = OUT_CAP. -/
theorem witness_ParseValidatesAndExtracts :
    (let s := engine 0x105 0 0 0 9 [0x81, 0x82, 0x12, 0x34, 0x56, 0x78, 0x53, 0x76] 8 14; s.inCap < s.inLen.toNat) ∧
    (let d := [0x81, 0x82, 0x12, 0x34];
      let s := ready 0x105 0 0 0 d;
      s.inLen.toNat ≤ s.inCap ∧ s.inBuf.readBytes 0 s.inLen.toNat = some d ∧ hdrDecode d = none) ∧
    (let d := [0x82, 0x0A] ++ List.replicate 9 0;
      let s := ready 0x105 0 0 0 d;
      s.inLen.toNat ≤ s.inCap ∧ s.inBuf.readBytes 0 s.inLen.toNat = some d ∧
        (hdrDecode d).any (fun h => h.poff + h.plen.toNat ≠ s.inLen.toNat) = true) ∧
    (let d := [0x82, 0x0F] ++ List.replicate 15 0;
      let s := engine 0x105 0 0 0 17 d 17 14;
      s.inLen.toNat ≤ s.inCap ∧ s.inBuf.readBytes 0 s.inLen.toNat = some d ∧
        (hdrDecode d).any (fun h => h.poff + h.plen.toNat = s.inLen.toNat ∧ s.outCap < h.plen.toNat) = true) ∧
    (let d := [0x82, 0x0E] ++ List.replicate 14 0;
      let s := engine 0x105 0 0 0 16 d 16 14;
      s.inLen.toNat ≤ s.inCap ∧ s.inBuf.readBytes 0 s.inLen.toNat = some d ∧
        (hdrDecode d).any (fun h => h.poff + h.plen.toNat = s.inLen.toNat ∧ h.plen.toNat ≤ s.outCap) = true) := by
  decide

theorem witness_ReservedCodesCompleteWithBadCommand :
    (0xFFFFFFF8 : Word).extractLsb' 0 3 = 0 ∧ (0xFFFFFFFE : Word).extractLsb' 0 3 = 6 ∧
      (0xFFFFFFFF : Word).extractLsb' 0 3 = 7 := by decide

theorem witness_CompletionNeverWritesItsInputs : ∃ t, exec .build s1 = .next t := ⟨_, rfl⟩

/-- An OK completion, and an error over an OUT_BUF that holds a byte. -/
theorem witness_CompletionWritesExactlyOutLenBytes :
    s1.CapsLegal ∧ (∃ t, exec .build s1 = .next t) ∧ ∃ t, exec .reservedOp0 s1 = .next t ∧ t.code ≠ .ok :=
  ⟨by decide, ⟨_, rfl⟩, _, rfl, by decide⟩

theorem witness_ErrorRecordsOnlyItsCode : ∃ t, exec .reservedOp6 s1 = .next t ∧ t.code ≠ .ok := ⟨_, rfl, by decide⟩

theorem witness_DecodeResultsComeFromDecodersOnly :
    (isDecoder .hdrDecode = true ∧
      ∃ t, exec .hdrDecode (ready 3 0 0 0 [0x0F, 0x05]) = .next t ∧ t.code = .ok) ∧
    (.build ∈ ([.mask, .hdrEncode, .build] : List Instr) ∧ ∃ t, exec .build s1 = .next t) :=
  ⟨⟨by decide, _, rfl, by decide⟩, by decide, _, rfl⟩

theorem witness_StatusCodesOfEachCommand : ∃ t, exec .build s1 = .next t := ⟨_, rfl⟩

/-- M10: two errors at once. -/
theorem witness_FirstErrorInTheTableIsReported :
    let s := engine 1 0 0x12345678 3 20 (List.replicate 16 0) 16 16;
    encode .mask = .command 1 ∧ s.inBuf.readBytes 0 (min s.inLen.toNat s.inCap) = some (List.replicate 16 0) := by decide

/-- Another OUT_BUF, other results and another byte above IN_LEN. -/
theorem witness_ResultDependsOnInputsOnly :
    let s' : State := { s1 with outBuf := [(0, 9)], inBuf := s1.inBuf ++ [(2, 7)], code := .badCommand, busy := false };
    s'.command = s1.command ∧ s'.inCap = s1.inCap ∧ s'.outCap = s1.outCap ∧
      (∀ a, a < s1.inLen.toNat → s'.inBuf.read a = s1.inBuf.read a) ∧ ∃ t, exec .build s1 = .next t :=
  ⟨rfl, rfl, rfl, by decide, _, rfl⟩

theorem witness_EveryCommandInFlightCanComplete : s1.Inv ∧ s1.busy = true := by decide

theorem witness_NoAllocationFailureWhenOutputIsAsLarge :
    let s := engine 1 0 0 4 14 ([0x82, 0x0C] ++ List.replicate 12 0) 14 14;
    s.inCap ≤ s.outCap ∧ (∃ t, exec .mask s = .next t) ∧ ∃ t, exec (.parse true) s = .next t :=
  ⟨by decide, ⟨_, rfl⟩, _, rfl⟩

theorem witness_MaskfXorsEachByteWithKeyIndexMod4 : ([0x12, 0x34, 0x56, 0x78] : List Byte).length = 4 := rfl

/-- Width 4 over nine bytes: two whole chunks and one byte. -/
theorem witness_ChunkedMaskingEqualsMaskf : 0 < 4 ∧ 4 % 4 = 0 ∧ ([1, 2, 3, 4] : List Byte).length = 4 ∧
    maskWide 4 [0, 0, 0, 0, 0, 0, 0, 0, 0] [0xAA, 0xBB, 0xCC, 0xDD] =
      [0xAA, 0xBB, 0xCC, 0xDD, 0xAA, 0xBB, 0xCC, 0xDD, 0xAA] := by decide

theorem witness_MaskfLaws : ([1, 2, 3, 4] : List Byte).length = 4 ∧ 5 ≤ ([1, 2, 3, 4, 5] : List Byte).length ∧
    ([1, 2, 3, 4] : List Byte).length % 4 = 0 := by decide

theorem witness_HeaderEncodeDecodeRoundTrip : ([1, 2, 3, 4] : List Byte).length = 4 ∧
    (hdrDecode [0x81, 0x7E, 0x00, 0x02]).isSome = true ∧ (hdrDecode [0x82, 0x7E, 0x00, 0x7E]).isSome = true := by decide

theorem witness_NonMinimalLengthsDecode :
    encode (.frameLen16 text 2 none) = .frame [0x81, 0x7E, 0x00, 0x02] ∧
    encode (.frameLen64 text 0x8000000000000000 none) = .frame [0x81, 0x7F, 0x80, 0, 0, 0, 0, 0, 0, 0] ∧
    lengthMarker 126 = 126 ∧ lengthMarker 65535 = 126 ∧ lengthMarker 65536 = 127 := by decide

/-- The largest length: the sum would wrap. -/
theorem witness_LengthSumNeedsNoWrap :
    let buf : List Byte := [0x82, 0x7F, 0xFF, 0xFF, 0xFF, 0xFF, 0xFF, 0xFF, 0xFF, 0xFF];
    buf.length < 2 ^ 64 ∧ (hdrDecode buf).isSome = true := by decide

/-- S1: the frame BUILD made, in another engine's IN_BUF. -/
theorem witness_ParseInvertsBuild :
    let u := ready 0x105 0 0 0 [0x81, 0x82, 0x12, 0x34, 0x56, 0x78, 0x53, 0x76];
    s1.CapsLegal ∧ ∃ t, exec .build s1 = .next t ∧ t.code = .ok ∧ u.inLen = t.outLen ∧ t.outLen.toNat ≤ u.inCap ∧
      s1.inLen.toNat ≤ u.outCap ∧ ∀ a, a < t.outLen.toNat → u.inBuf.read a = t.outBuf.read a :=
  ⟨by decide, _, rfl, by decide, by decide, by decide, by decide, fun a h => by
    have h : a < 8 := h
    interval_cases a <;> rfl⟩

theorem witness_CommandRegisterReadsBackAsWritten :
    (s1Idle (hostWr .flags 0xFFFFFFFF)).busy = false ∧
      (s1Idle (hostWr .flags 0xFFFFFFFF)).HostNext (.wr 32 Reg.flags.offset 0xFFFFFFFF) [] :=
  ⟨rfl, rfl, by decide⟩

/-- The first and the last reserved offset, and STATUS. -/
theorem witness_ReservedAndReadOnlyIgnoreWrites :
    ((s1Idle (hostWr .cmd 0xFFFFFFFF)).ReservedZero ∧
      (s1Idle (hostWr .cmd 0xFFFFFFFF)).HostNext (.wr 32 Reg.cmd.offset 0xFFFFFFFF) [] ∧
      ∃ t, step (s1Idle (hostWr .cmd 0xFFFFFFFF)) = .next t) ∧
    s1.ReservedZero ∧ 0x44 ≤ 0x44 ∧ (0xFC % 4 = 0 ∧ 0xFC ≤ 0xFF ∧ 0x44 ≤ 0xFC) ∧
      (s1Busy (.wr 32 0xFC 1)).HostNext (.wr 32 0xFC 1) [] ∧ (s1Idle (.wr 32 0x24 1)).HostNext (.wr 32 0x24 1) [] :=
  ⟨⟨by decide, ⟨rfl, by decide⟩, _, rfl⟩, by decide, by decide, by decide, ⟨rfl, by decide⟩, ⟨rfl, by decide⟩⟩

/-- GO = 0; GO = 1 during BUSY; GO = 1 outside BUSY with the input written. -/
theorem witness_StartBeginsTheSelectedCommand :
    ((s1Idle (.wr 32 0x20 2)).HostNext (.wr 32 0x20 2) [] ∧ (2 : Word).getLsbD 0 = false) ∧
    ((s1Busy hostStart).HostNext (.wr 32 0x20 1) [] ∧ (1 : Word).getLsbD 0 = true ∧ (s1Busy hostStart).busy = true) ∧
    ((s1Idle hostStart).HostNext (.wr 32 0x20 1) [] ∧ (s1Idle hostStart).busy = false ∧
      (s1Idle hostStart).inputReady = true) :=
  ⟨⟨⟨rfl, by decide⟩, by decide⟩, ⟨⟨rfl, by decide⟩, by decide, rfl⟩, ⟨rfl, by decide⟩, rfl, by decide⟩

/-- The last index of OUT_BUF unwritten; the last byte of the input unwritten; a write at the last index. -/
theorem witness_UnwrittenBytesHaveNoValue :
    (s1.CapsLegal ∧ ∃ t, exec .build s1 = .next t ∧ 7 < t.outLen.toNat) ∧
    (let s := withHost (engine 1 0 0 4 2 [0x41] 16 16) [.rdb .output 8 15];
      s.busy = false ∧ 15 < s.outCap ∧ s.outBuf.read 15 = none ∧ s.HostNext (.rdb .output 8 15) []) ∧
    (let s := withHost (engine 1 0 0 4 2 [0x41] 16 16) [hostStart];
      s.busy = false ∧ s.selected = .mask ∧ 1 < min s.inLen.toNat s.inCap ∧ s.inBuf.read 1 = none ∧
        s.HostNext (.wr 32 0x20 1) []) ∧
    (let s := withHost (engine 1 0 0 4 2 [0x41] 16 16) [.wrb .input 8 15 3];
      s.busy = false ∧ 15 < s.capacity .input ∧ s.HostNext (.wrb .input 8 15 3) []) :=
  ⟨⟨by decide, _, rfl, by decide⟩, ⟨rfl, by decide, rfl, rfl, by decide⟩,
    ⟨rfl, by decide, by decide, rfl, rfl, by decide⟩, rfl, by decide, rfl, by decide⟩

/-- A width of 16, an offset of 0x100, an index at the capacity; the last register offset. -/
theorem witness_OnlyAdmittedAccessesAreTaken :
    ((s1Idle (.rd 16 0x24)).HostNext (.rd 16 0x24) [] ∧ 16 ≠ 32) ∧
    ((s1Idle (.wr 32 0x100 0)).HostNext (.wr 32 0x100 0) [] ∧ 0xFF < 0x100) ∧
    ((s1Idle (.rdb .output 8 131072)).HostNext (.rdb .output 8 131072) [] ∧
      (s1Idle (.rdb .output 8 131072)).capacity .output ≤ 131072) ∧
    ((s1Idle (.wrb .input 32 0 0)).HostNext (.wrb .input 32 0 0) [] ∧ 32 ≠ 8) ∧
    ((s1Idle (.rd 32 0xFC)).HostNext (.rd 32 0xFC) [] ∧ 0xFC % 4 = 0 ∧ 0xFC ≤ 0xFF) :=
  ⟨⟨⟨rfl, by decide⟩, by decide⟩, ⟨⟨rfl, by decide⟩, by decide⟩, ⟨⟨rfl, by decide⟩, by decide⟩,
    ⟨⟨rfl, by decide⟩, by decide⟩, ⟨rfl, by decide⟩, by decide, by decide⟩

theorem witness_HostReadsHaveNoSideEffects :
    ((∃ t, step (s1Idle (hostRd .status)) = .next t) ∧ (s1Idle (hostRd .status)).HostNext (.rd 32 0x24) []) ∧
    ((∃ t, step (s1Idle (.rdb .input 8 1)) = .next t) ∧ (s1Idle (.rdb .input 8 1)).HostNext (.rdb .input 8 1) []) :=
  ⟨⟨⟨_, rfl⟩, rfl, by decide⟩, ⟨_, rfl⟩, rfl, by decide⟩

theorem witness_BufferReadReturnsTheWrittenByte :
    let s := s1Idle (.rdb .input 8 1);
    s.busy = false ∧ 1 < s.capacity .input ∧ (s.buffer .input).read 1 = some 0x42 ∧ s.HostNext (.rdb .input 8 1) [] :=
  ⟨rfl, by decide, by decide, rfl, by decide⟩

theorem witness_HostWritesDuringBusyAreRefused :
    (s1Busy (hostWr .key 1)).busy = true ∧ (s1Busy (hostWr .key 1)).HostNext (.wr 32 Reg.key.offset 1) [] ∧
    (s1Busy hostStart).HostNext (.wr 32 0x20 1) [] ∧
    (131071 < (s1Busy (.wrb .output 8 131071 0)).capacity .output ∧
      (s1Busy (.wrb .output 8 131071 0)).HostNext (.wrb .output 8 131071 0) []) ∧
    (s1Busy (.wr 32 0x44 1)).HostNext (.wr 32 0x44 1) [] ∧ (s1Busy (.wr 32 0x40 1)).HostNext (.wr 32 0x40 1) [] :=
  ⟨rfl, ⟨rfl, by decide⟩, ⟨rfl, by decide⟩, ⟨by decide, rfl, by decide⟩, ⟨rfl, by decide⟩, rfl, by decide⟩

theorem witness_HostReadsDuringBusyReturnPreviousValues :
    (s1Busy (hostRd .status)).busy = true ∧ (s1Busy (hostRd .status)).HostNext (.rd 32 0x24) [] ∧
    (s1Busy (hostRd .rPoff)).HostNext (.rd 32 Reg.rPoff.offset) [] ∧
    (131071 < (s1Busy (.rdb .output 8 131071)).outCap ∧
      (s1Busy (.rdb .output 8 131071)).HostNext (.rdb .output 8 131071) []) :=
  ⟨rfl, ⟨rfl, by decide⟩, ⟨rfl, by decide⟩, by decide, rfl, by decide⟩

theorem witness_ResetAbandonsTheCommandInFlight :
    (s1Busy .reset).HostNext .reset [] ∧ (s1Busy .reset).busy = true := ⟨⟨rfl, by decide⟩, rfl⟩

theorem witness_StartThenWaitEndsWithTheResults :
    let s := withHost s1 [.wr 32 0x20 1, .wait];
    s.Inv ∧ s.busy = false ∧ s.inputReady = true ∧ s.hostQueue = [.wr 32 0x20 1, .wait] := by decide

/-- A host read goes first, and the completion itself. -/
theorem witness_OnlyTheCompletionChangesTheEngine :
    ((s1Busy (hostRd .status)).busy = true ∧ ∃ t, step (s1Busy (hostRd .status)) = .next t) ∧
      (s1.busy = true ∧ ∃ t, step s1 = .next t) := ⟨⟨rfl, _, rfl⟩, rfl, _, rfl⟩

/-- The engine's turn; the host's with nothing to do; a write that is refused. -/
theorem witness_EveryCommandInFlightCompletesUnderEverySchedule :
    (s1.Inv ∧ s1.busy = true) ∧ ((busyHost s1 []).Inv ∧ (busyHost s1 []).busy = true) ∧
      ((s1Busy hostStart).Inv ∧ (s1Busy hostStart).busy = true) := by decide

/-- A range that ends at both capacities. -/
theorem witness_CopyOutInMovesTheBytes :
    let s := withHost { State.resetWith 16 16 with outBuf := [(14, 1), (15, 2)] } [.copyOutIn 14 2];
    s.busy = false ∧ s.hostQueue = [.copyOutIn 14 2] ∧ 14 + 2 ≤ s.inCap ∧ 14 + 2 ≤ s.outCap ∧
      ∀ a, 14 ≤ a → a < 14 + 2 → (s.outBuf.read a).isSome = true := by
  refine ⟨rfl, rfl, by decide, by decide, fun a h1 h2 => ?_⟩
  obtain rfl | rfl : a = 14 ∨ a = 15 := by omega
  · rfl
  · rfl

end Sys2Proof.Tests
end

/-! # Proofs: the state and its registers (`10_state.md`)

Rules about the host's turn, register writes, reserved bits and the completion of a command, then the statements. -/

namespace Sys2Proof.Machine

/-! ## The host's turn -/

/-- The state in which the host's next operation acts: its turn taken, `rest` its program after that operation. -/
def State.afterHostTurn (s : State) (rest : List HostOp) : State :=
  { s.afterTurn with hostQueue := rest }

theorem step_of_hostNext {s : State} {op : HostOp} {rest : List HostOp} (h : s.HostNext op rest) :
    step s = hostPerform op (s.afterHostTurn rest) := by
  obtain ⟨hq, ht⟩ := h
  rw [step_of_host ht, hostTurn, afterTurn_hostQueue, hq]
  rfl

@[simp] theorem afterHostTurn_command (s : State) (rest : List HostOp) :
    (s.afterHostTurn rest).command = s.command := rfl

@[simp] theorem afterHostTurn_result (s : State) (rest : List HostOp) :
    (s.afterHostTurn rest).result = s.result := rfl

@[simp] theorem afterHostTurn_code (s : State) (rest : List HostOp) :
    (s.afterHostTurn rest).code = s.code := rfl

@[simp] theorem afterHostTurn_busy (s : State) (rest : List HostOp) :
    (s.afterHostTurn rest).busy = s.busy := rfl

@[simp] theorem afterHostTurn_inBuf (s : State) (rest : List HostOp) :
    (s.afterHostTurn rest).inBuf = s.inBuf := rfl

@[simp] theorem afterHostTurn_outBuf (s : State) (rest : List HostOp) :
    (s.afterHostTurn rest).outBuf = s.outBuf := rfl

@[simp] theorem afterHostTurn_inCap (s : State) (rest : List HostOp) :
    (s.afterHostTurn rest).inCap = s.inCap := rfl

@[simp] theorem afterHostTurn_outCap (s : State) (rest : List HostOp) :
    (s.afterHostTurn rest).outCap = s.outCap := rfl

@[simp] theorem afterHostTurn_hostQueue (s : State) (rest : List HostOp) :
    (s.afterHostTurn rest).hostQueue = rest := rfl

@[simp] theorem afterHostTurn_hostReads (s : State) (rest : List HostOp) :
    (s.afterHostTurn rest).hostReads = s.hostReads := rfl

@[simp] theorem afterHostTurn_turns (s : State) (rest : List HostOp) :
    (s.afterHostTurn rest).turns = s.turns.tail := rfl

@[simp] theorem afterHostTurn_freeCount (s : State) (rest : List HostOp) :
    (s.afterHostTurn rest).freeCount = s.freeCount := rfl

@[simp] theorem afterHostTurn_selected (s : State) (rest : List HostOp) :
    (s.afterHostTurn rest).selected = s.selected := rfl

@[simp] theorem afterHostTurn_inputReady (s : State) (rest : List HostOp) :
    (s.afterHostTurn rest).inputReady = s.inputReady := rfl

/-- Taking the host's turn is no change of the engine. -/
theorem sameEngine_afterHostTurn (s : State) (rest : List HostOp) : SameEngine s (s.afterHostTurn rest) :=
  ⟨rfl, rfl, rfl, rfl, rfl, rfl, rfl, rfl⟩

/-! ## The register map (R23, R24) -/

@[simp] theorem atOffset_offset (r : Reg) : Reg.atOffset r.offset = some r := by
  cases r <;> rfl

theorem offset_le (r : Reg) : r.offset ≤ 0x40 := by
  cases r <;> decide

@[simp] theorem registerAccessAdmitted_offset (r : Reg) : registerAccessAdmitted 32 r.offset = true := by
  cases r <;> rfl

theorem registerAccessAdmitted_iff {width offset : Nat} :
    registerAccessAdmitted width offset = true ↔ width = 32 ∧ offset % 4 = 0 ∧ offset ≤ 0xFF := by
  simp [registerAccessAdmitted, and_assoc]

/-- Every offset above R_POFF is reserved. -/
theorem atOffset_of_reserved {offset : Nat} (h : 0x44 ≤ offset) : Reg.atOffset offset = none := by
  refine List.find?_eq_none.2 fun r _ hr => ?_
  have hle := offset_le r
  rw [beq_iff_eq] at hr
  omega

theorem readOffset_of_reserved {s : State} {offset : Nat} (h : 0x44 ≤ offset) : s.readOffset offset = 0 := by
  rw [State.readOffset, atOffset_of_reserved h]

/-- The offsets from STATUS on are those of the read-only registers. -/
theorem readOnly_at_offset : ∀ offset ∈ [0x24, 0x28, 0x2C, 0x30, 0x34, 0x38, 0x3C, 0x40],
    ∃ r ∈ Reg.all, r.offset = offset ∧ r ≠ .start ∧ r.isCommand = false := by decide

/-! ## Register writes -/

theorem hostWriteReg_offset (r : Reg) (v : Word) (s : State) :
    hostWriteReg 32 r.offset v s = writeRegister r v s := by
  simp [hostWriteReg]

theorem writeRegister_start_noGo {v : Word} (h : v.getLsbD 0 = false) (s : State) :
    writeRegister .start v s = .next s := by
  simp only [writeRegister, beq_self_eq_true, if_true, h, Bool.false_eq_true, if_false]

theorem writeRegister_start_go {v : Word} (h : v.getLsbD 0 = true) (s : State) :
    writeRegister .start v s = if s.busy then .refused .writeWhileBusy else startCommand s := by
  simp only [writeRegister, beq_self_eq_true, if_true, h]

theorem writeRegister_command {r : Reg} (h : r.isCommand = true) (v : Word) (s : State) :
    writeRegister r v s =
      if s.busy then .refused .writeWhileBusy else .next { s with command := s.command.set r v } := by
  have hr : (r == Reg.start) = false := by
    cases r
    case start => cases h
    all_goals rfl
  simp only [writeRegister, hr, Bool.false_eq_true, if_false, h, if_true]

/-- A read-only register ignores writes, during BUSY too (R24). -/
theorem writeRegister_readOnly {r : Reg} (hs : r ≠ .start) (hc : r.isCommand = false) (v : Word) (s : State) :
    writeRegister r v s = .next s := by
  simp only [writeRegister, beq_eq_false_iff_ne.2 hs, hc, Bool.false_eq_true, if_false]

theorem startCommand_of_inputReady {s : State} (h : s.inputReady = true) :
    startCommand s = .next { s with busy := true } := by
  rw [startCommand, if_pos h]

theorem startCommand_eq_next {s t : State} :
    startCommand s = .next t ↔ s.inputReady = true ∧ t = { s with busy := true } := by
  unfold startCommand
  split <;> simp [*, eq_comm]

/-- All that a register write that is taken can do. -/
theorem writeRegister_next {r : Reg} {v : Word} {s t : State} (h : writeRegister r v s = .next t) :
    (r.isCommand = false ∧ t = s) ∨
    (r = .start ∧ v.getLsbD 0 = true ∧ s.busy = false ∧ s.inputReady = true ∧ t = { s with busy := true }) ∨
    (r.isCommand = true ∧ s.busy = false ∧ t = { s with command := s.command.set r v }) := by
  by_cases hs : r = .start
  · subst hs
    cases hv : v.getLsbD 0 with
    | false => exact .inl ⟨rfl, by simpa [writeRegister_start_noGo hv] using h.symm⟩
    | true =>
      rw [writeRegister_start_go hv] at h
      split at h
      · cases h
      · obtain ⟨hi, rfl⟩ := startCommand_eq_next.1 h
        exact .inr (.inl ⟨rfl, rfl, by simpa using ‹¬ s.busy = true›, hi, rfl⟩)
  · cases hc : r.isCommand with
    | false => exact .inl ⟨rfl, by simpa [writeRegister_readOnly hs hc] using h.symm⟩
    | true =>
      rw [writeRegister_command hc] at h
      split at h
      · cases h
      · exact .inr (.inr ⟨rfl, by simpa using ‹¬ s.busy = true›, by simpa using h.symm⟩)

/-- A write to a reserved offset or to a read-only register is taken and changes nothing (R24). -/
theorem hostWriteReg_ignored {offset : Nat} (ha : offset % 4 = 0) (hl : offset ≤ 0xFF)
    (ho : 0x44 ≤ offset ∨ offset ∈ [0x24, 0x28, 0x2C, 0x30, 0x34, 0x38, 0x3C, 0x40]) (v : Word) (s : State) :
    hostWriteReg 32 offset v s = .next s := by
  rcases ho with hr | hr
  · rw [hostWriteReg, if_pos (registerAccessAdmitted_iff.2 ⟨rfl, ha, hl⟩), atOffset_of_reserved hr]
  · obtain ⟨r, -, rfl, hs, hc⟩ := readOnly_at_offset offset hr
    rw [hostWriteReg_offset, writeRegister_readOnly hs hc]

/-! ## Reserved bits (R24) -/

theorem and_and_not_self {w : Nat} (v m : BitVec w) : v &&& m &&& ~~~m = 0 := by
  rw [BitVec.and_assoc, BitVec.and_not_self]
  exact BitVec.and_zero

theorem statusWord_of_idle_ok {s : State} (hb : s.busy = false) (hc : s.code = .ok) : s.statusWord = 0 := by
  rw [State.statusWord, hb, hc]
  rfl

theorem statusWord_reserved (s : State) : s.statusWord &&& ~~~Reg.status.namedBits = 0 := by
  unfold State.statusWord
  cases s.busy <;> cases s.code <;> rfl

/-- Where the stored reserved bits are 0, every register reads 0 in its reserved bits. -/
theorem register_reserved {s : State} (h : s.ReservedZero) (r : Reg) : s.register r &&& ~~~r.namedBits = 0 := by
  obtain ⟨hcmd, hflags, hkeyLen, hrHdr, -⟩ := h
  cases r with
  | cmd => exact hcmd
  | flags => exact hflags
  | keyLen => exact hkeyLen
  | rHdr => exact hrHdr
  | status => exact statusWord_reserved s
  | start => exact BitVec.zero_and
  | key | plenLo | plenHi | inLenLo | inLenHi | outLenLo | outLenHi | rKey | rPlenLo | rPlenHi | rPoff =>
    exact BitVec.and_zero

/-- Writing a command register keeps the reserved bits 0: it stores named bits only. -/
theorem reservedZero_set {s : State} (h : s.ReservedZero) (r : Reg) (v : Word) :
    State.ReservedZero { s with command := s.command.set r v } := by
  obtain ⟨hcmd, hflags, hkeyLen, hresult⟩ := h
  cases r with
  | cmd => exact ⟨and_and_not_self v _, hflags, hkeyLen, hresult⟩
  | flags => exact ⟨hcmd, and_and_not_self v _, hkeyLen, hresult⟩
  | keyLen => exact ⟨hcmd, hflags, and_and_not_self v _, hresult⟩
  | _ => exact ⟨hcmd, hflags, hkeyLen, hresult⟩

theorem writeRegister_keeps_reservedZero {r : Reg} {v : Word} {s t : State} (hz : s.ReservedZero)
    (h : writeRegister r v s = .next t) : t.ReservedZero := by
  rcases writeRegister_next h with ⟨-, rfl⟩ | ⟨-, -, -, -, rfl⟩ | ⟨-, -, rfl⟩
  · exact hz
  · exact hz
  · exact reservedZero_set hz r v

/-! ## Completion -/

theorem keepsInputs_raise (s : State) (c : StatusCode) : KeepsInputs s (raise s c) :=
  ⟨rfl, rfl, rfl, rfl, rfl, rfl, rfl, rfl⟩

theorem completesWithError_of_raise {i : Instr} {s : State} {c : StatusCode} (h : exec i s = .next (raise s c)) :
    CompletesWithError i s c :=
  ⟨raise s c, h, rfl, rfl, rfl, fun _ => rfl, keepsInputs_raise s c⟩

/-! ## What a result depends on (R19) -/

/-- The two states agree on all that a command may read: the command registers, the parameters, `IN_BUF[0..IN_LEN)`. -/
structure SameInputs (s s' : State) : Prop where
  command : s'.command = s.command
  inCap   : s'.inCap = s.inCap
  outCap  : s'.outCap = s.outCap
  inBuf   : ∀ a, a < s.inLen.toNat → s'.inBuf.read a = s.inBuf.read a

/-- Two answers, one on `s` and one on `s'`, that are the same refusal or the same completion. -/
inductive SameAnswer (s s' : State) : Outcome → Outcome → Prop where
  | refuses (r : Refusal) : SameAnswer s s' (.refused r) (.refused r)
  | raises (c : StatusCode) : SameAnswer s s' (.next (raise s c)) (.next (raise s' c))
  | finishes (out : List Byte) (rHdr rKey : Word) (rPlen : DWord) (rPoff : Word) :
      SameAnswer s s' (.next (finishOk s out rHdr rKey rPlen rPoff)) (.next (finishOk s' out rHdr rKey rPlen rPoff))

namespace SameInputs

variable {s s' : State} (h : SameInputs s s')
include h

theorem inLen : s'.inLen = s.inLen := by rw [State.inLen, State.inLen, h.command]

theorem plen : s'.plen = s.plen := by rw [State.plen, State.plen, h.command]

theorem keyLength : s'.keyLength = s.keyLength := by rw [State.keyLength, State.keyLength, h.command]

theorem keyBytes : s'.keyBytes = s.keyBytes := by rw [State.keyBytes, State.keyBytes, h.command]

theorem frameFlags : s'.frameFlags = s.frameFlags := by rw [State.frameFlags, State.frameFlags, h.command]

theorem maskedFlag : s'.maskedFlag = s.maskedFlag := by rw [State.maskedFlag, State.maskedFlag, h.command]

theorem readBytes {n : Nat} (hn : n ≤ s.inLen.toNat) : s'.inBuf.readBytes 0 n = s.inBuf.readBytes 0 n :=
  readBytes_congr fun i hi => h.inBuf (0 + i) (by omega)

end SameInputs

namespace SameAnswer

variable {s s' : State}

/-- Both commands make the same check. -/
theorem ite {p : Prop} [Decidable p] {a a' b b' : Outcome} (ha : SameAnswer s s' a a') (hb : SameAnswer s s' b b') :
    SameAnswer s s' (if p then a else b) (if p then a' else b') := by
  split
  · exact ha
  · exact hb

/-- Both commands read the same first bytes of `IN_BUF[0..IN_LEN)`. -/
theorem of_withInput (h : SameInputs s s') {n : Nat} (hn : n ≤ s.inLen.toNat) {k k' : List Byte → State}
    (hk : ∀ data, SameAnswer s s' (.next (k data)) (.next (k' data))) :
    SameAnswer s s' (withInput s n k) (withInput s' n k') := by
  unfold withInput
  rw [h.readBytes hn]
  cases s.inBuf.readBytes 0 n with
  | none => exact .refuses _
  | some data => exact hk data

theorem of_execMask (h : SameInputs s s') : SameAnswer s s' (execMask s) (execMask s') := by
  simp only [execMask, h.inLen, h.inCap, h.outCap, h.keyLength, h.keyBytes]
  exact .ite (.raises _) (.ite (.raises _) (.ite (.raises _) (.of_withInput h le_rfl fun _ => .finishes ..)))

theorem of_execHdrEncode (h : SameInputs s s') : SameAnswer s s' (execHdrEncode s) (execHdrEncode s') := by
  simp only [execHdrEncode, h.frameFlags, h.maskedFlag, h.plen]
  exact .finishes ..

theorem of_execHdrDecode (h : SameInputs s s') : SameAnswer s s' (execHdrDecode s) (execHdrDecode s') := by
  simp only [execHdrDecode, h.inLen, h.inCap]
  refine .ite (.raises _) (.of_withInput h (min_le_left _ _) fun data => ?_)
  cases hdrDecode data with
  | none => exact .raises _
  | some hdr => exact .finishes ..

theorem of_execBuild (h : SameInputs s s') : SameAnswer s s' (execBuild s) (execBuild s') := by
  simp only [execBuild, h.inLen, h.inCap, h.outCap, h.keyLength, h.keyBytes, h.frameFlags]
  exact .ite (.raises _) (.ite (.raises _) (.ite (.raises _) (.of_withInput h le_rfl fun _ => .finishes ..)))

theorem of_parseInput (h : SameInputs s s') (autoUnmask : Bool) (data : List Byte) :
    SameAnswer s s' (.next (parseInput s autoUnmask data)) (.next (parseInput s' autoUnmask data)) := by
  unfold parseInput
  rw [h.outCap]
  cases hdrDecode data with
  | none => exact .raises _
  | some hdr =>
    simp only [apply_ite Host.Outcome.next]
    exact .ite (.raises _) (.ite (.raises _) (.finishes ..))

theorem of_execParse (h : SameInputs s s') (autoUnmask : Bool) :
    SameAnswer s s' (execParse autoUnmask s) (execParse autoUnmask s') := by
  simp only [execParse, h.inLen, h.inCap]
  exact .ite (.raises _) (.of_withInput h le_rfl (of_parseInput h autoUnmask))

/-- Every instruction answers the same on states with the same inputs. -/
theorem of_exec (h : SameInputs s s') (i : Instr) : SameAnswer s s' (exec i s) (exec i s') := by
  cases i with
  | mask => exact of_execMask h
  | hdrEncode => exact of_execHdrEncode h
  | hdrDecode => exact of_execHdrDecode h
  | build => exact of_execBuild h
  | parse autoUnmask => exact of_execParse h autoUnmask
  | reservedOp0 | reservedOp6 | reservedOp7 => exact .raises _
  | frameLen7 | frameLen16 | frameLen64 => exact .finishes ..

/-- The same completion leaves the same code, the same result registers and the same OUT_BUF bytes below OUT_LEN. -/
theorem sameResult {o o' : Outcome} {t : State} (h : SameAnswer s s' o o') (ht : o = .next t) :
    ∃ t', o' = .next t' ∧ t'.code = t.code ∧ t'.result = t.result ∧
      ∀ a, a < t.outLen.toNat → t'.outBuf.read a = t.outBuf.read a := by
  cases h with
  | refuses r => cases ht
  | raises c =>
    cases ht
    exact ⟨_, rfl, rfl, rfl, fun a ha => by simp at ha⟩
  | finishes out rHdr rKey rPlen rPoff =>
    cases ht
    refine ⟨_, rfl, rfl, rfl, fun a ha => ?_⟩
    have hlen : a < out.length := by
      rw [finishOk_outLen, BitVec.toNat_ofNat] at ha
      exact ha.trans_le (Nat.mod_le _ _)
    rw [finishOk_outBuf, finishOk_outBuf, read_writeBytes_inside _ _ hlen, read_writeBytes_inside _ _ hlen]

end SameAnswer

/-! ## The statements -/

/-- Settles O25, from the comparison of the two completions command by command. -/
theorem resultDependsOnInputsOnly : Obligations.ResultDependsOnInputsOnly := by
  unfold Obligations.ResultDependsOnInputsOnly
  intro i s s' t hcommand hinCap houtCap hinBuf ht
  exact (SameAnswer.of_exec ⟨hcommand, hinCap, houtCap, hinBuf⟩ i).sameResult ht

/-- Settles O38, from what a taken register write can do and the register map. -/
theorem reservedAndReadOnlyIgnoreWrites : Obligations.ReservedAndReadOnlyIgnoreWrites := by
  unfold Obligations.ReservedAndReadOnlyIgnoreWrites
  refine ⟨fun s r hz => register_reserved hz r, ?_, fun s offset => readOffset_of_reserved, ?_⟩
  · intro s t r v rest hz hn ht
    rw [step_of_hostNext hn, hostPerform, hostWriteReg_offset] at ht
    have hz' : t.ReservedZero := writeRegister_keeps_reservedZero (s := s.afterHostTurn rest) hz ht
    exact ⟨hz', register_reserved hz' r⟩
  · intro s offset v rest ha hl ho hn
    refine ⟨s.afterHostTurn rest, ?_, sameEngine_afterHostTurn s rest, rfl, rfl⟩
    rw [step_of_hostNext hn, hostPerform, hostWriteReg_ignored ha hl ho]

/-- Settles O39, from the two equations of a write to START. -/
theorem startBeginsTheSelectedCommand : Obligations.StartBeginsTheSelectedCommand := by
  unfold Obligations.StartBeginsTheSelectedCommand
  intro s v rest hn
  have hstep : step s = writeRegister .start v (s.afterHostTurn rest) := by
    rw [step_of_hostNext hn]
    exact hostWriteReg_offset .start v _
  rw [hstep]
  refine ⟨rfl, fun hgo => ?_, fun hgo hbusy => ?_, fun hgo hbusy hready => ?_⟩
  · exact ⟨_, writeRegister_start_noGo hgo _, sameEngine_afterHostTurn s rest⟩
  · rw [writeRegister_start_go hgo, afterHostTurn_busy, if_pos hbusy]
  · refine ⟨{ s.afterHostTurn rest with busy := true }, ?_, rfl, ⟨rfl, rfl, rfl, rfl, rfl, rfl, rfl, rfl⟩, rfl, rfl, rfl⟩
    rw [writeRegister_start_go hgo, afterHostTurn_busy, hbusy, if_neg Bool.false_ne_true,
      startCommand_of_inputReady (s := s.afterHostTurn rest) hready]

/-- Settles O1: CMD 0 selects the reserved code 0. -/
theorem resetLeavesRegistersZeroAndBuffersUnwritten : Obligations.ResetLeavesRegistersZeroAndBuffersUnwritten := by
  unfold Obligations.ResetLeavesRegistersZeroAndBuffersUnwritten
  intro inCap outCap
  have hregister (r : Reg) : (State.resetWith inCap outCap).register r = 0 := by
    cases r
    case status => exact statusWord_of_idle_ok rfl rfl
    all_goals rfl
  exact ⟨hregister, rfl, rfl, fun a => ⟨rfl, rfl⟩, completesWithError_of_raise rfl⟩

end Sys2Proof.Machine

/-! # Proofs: the buffers and their accesses (`20_memory.md`)

What a completion stores, what each host operation that is taken can do, then the statements. -/

namespace Sys2Proof.Machine

/-! ## Completion (R45, R113) -/

/-- The two ways a command in `s` completes: an error, which writes no byte, or OK with output that fits into OUT_BUF. -/
inductive Completion (s : State) : State → Prop where
  | error (c : StatusCode) (hc : c ≠ .ok) : Completion s (raise s c)
  | success (out : List Byte) (rHdr rKey : Word) (rPlen : DWord) (rPoff : Word) (hfits : out.length ≤ s.outCap) :
      Completion s (finishOk s out rHdr rKey rPlen rPoff)

/-- A header without a key always fits: OUT_CAP is at least 14 (R9, R85). -/
theorem hdrEncode_length_le_outCap {s : State} (hcaps : s.CapsLegal) (flags : FrameFlags) (masked : Bool) (p : DWord) :
    (hdrEncode flags masked p).length ≤ s.outCap := by
  obtain ⟨-, hmin, -⟩ := hcaps
  have hbound := (headerLength_bounds p).2
  rw [hdrEncode_length]
  unfold Config.minOutCap at hmin
  omega

/-- Every next state of every instruction is a completion, and its output fits into OUT_BUF: MASK, BUILD and PARSE check
it, HDR_ENCODE needs no check, and the others write no byte. -/
theorem exec_completion {i : Instr} {s t : State} (hcaps : s.CapsLegal) (h : exec i s = .next t) : Completion s t := by
  cases i with
  | mask =>
    rcases execMask_next h with ⟨-, rfl⟩ | ⟨-, -, rfl⟩ | ⟨-, -, -, rfl⟩ | ⟨-, -, hroom, data, hdata, rfl⟩
    · exact .error _ (by decide)
    · exact .error _ (by decide)
    · exact .error _ (by decide)
    · have hlen := (readBytes_eq_some.1 hdata).1
      exact .success _ _ _ _ _ (by rw [maskf, maskFrom_length, hlen]; exact hroom)
  | hdrEncode =>
    cases h
    exact .success _ _ _ _ _ (hdrEncode_length_le_outCap hcaps _ _ _)
  | hdrDecode =>
    rcases execHdrDecode_next h with ⟨-, rfl⟩ | ⟨-, data, -, ⟨-, rfl⟩ | ⟨hdr, -, rfl⟩⟩
    · exact .error _ (by decide)
    · exact .error _ (by decide)
    · exact .success [] _ _ _ _ (Nat.zero_le _)
  | build =>
    rcases execBuild_next h with ⟨-, rfl⟩ | ⟨-, -, -, rfl⟩ | ⟨-, -, -, rfl⟩ | ⟨-, -, hroom, payload, hpayload, rfl⟩
    · exact .error _ (by decide)
    · exact .error _ (by decide)
    · exact .error _ (by decide)
    · have hlen := (readBytes_eq_some.1 hpayload).1
      exact .success _ _ _ _ _ (by rw [buildFrame_length _ _ _ _ _ rfl hlen]; exact hroom)
  | parse autoUnmask =>
    rcases execParse_next h with
      ⟨-, rfl⟩ | ⟨-, data, -, ⟨-, rfl⟩ | ⟨hdr, -, ⟨-, rfl⟩ | ⟨-, -, rfl⟩ | ⟨htotal, hroom, rfl⟩⟩⟩
    · exact .error _ (by decide)
    · exact .error _ (by decide)
    · exact .error _ (by decide)
    · exact .error _ (by decide)
    · exact .success _ _ _ _ _ (by rw [parsedPayload_length]; omega)
  | reservedOp0 | reservedOp6 | reservedOp7 =>
    cases h
    exact .error _ (by decide)
  | frameLen7 | frameLen16 | frameLen64 =>
    cases h
    exact .success [] _ _ _ _ (Nat.zero_le _)

/-- OUT_LEN is the number of bytes written, with no wrap: OUT_CAP is below 2^64 (R9). -/
theorem finishOk_outLen_toNat {s : State} (hcaps : s.CapsLegal) {out : List Byte} (hfits : out.length ≤ s.outCap)
    (rHdr rKey : Word) (rPlen : DWord) (rPoff : Word) :
    (finishOk s out rHdr rKey rPlen rPoff).outLen.toNat = out.length := by
  obtain ⟨-, -, hmax⟩ := hcaps
  unfold Config.maxCap at hmax
  rw [finishOk_outLen, BitVec.toNat_ofNat, Nat.mod_eq_of_lt (by omega)]

namespace Completion

variable {s t : State}

theorem written_below_outLen (h : Completion s t) (hcaps : s.CapsLegal) {a : Nat} (ha : a < t.outLen.toNat) :
    (t.outBuf.read a).isSome = true := by
  cases h with
  | error c hc => simp at ha
  | success out rHdr rKey rPlen rPoff hfits =>
    rw [finishOk_outLen_toNat hcaps hfits] at ha
    rw [finishOk_outBuf, read_writeBytes_inside _ _ ha, List.getElem?_eq_getElem ha, Option.isSome_some]

theorem kept_from_outLen (h : Completion s t) (hcaps : s.CapsLegal) {a : Nat} (ha : t.outLen.toNat ≤ a) :
    t.outBuf.read a = s.outBuf.read a := by
  cases h with
  | error c hc => rfl
  | success out rHdr rKey rPlen rPoff hfits =>
    rw [finishOk_outLen_toNat hcaps hfits] at ha
    rw [finishOk_outBuf, read_writeBytes_outside _ _ ha]

theorem error_writes_nothing (h : Completion s t) (hcode : t.code ≠ .ok) : t.outLen = 0 ∧ t.outBuf = s.outBuf := by
  cases h with
  | error c hc => exact ⟨raise_outLen s c, rfl⟩
  | success out rHdr rKey rPlen rPoff hfits => exact absurd rfl hcode

end Completion

/-! ## Host accesses (R49, R43, R130) -/

theorem bufferAccessAdmitted_iff {s : State} {buffer : Buffer} {width index : Nat} :
    bufferAccessAdmitted s buffer width index = true ↔ width = 8 ∧ index < s.capacity buffer := by
  simp [bufferAccessAdmitted]

@[simp] theorem afterHostTurn_capacity (s : State) (rest : List HostOp) (buffer : Buffer) :
    (s.afterHostTurn rest).capacity buffer = s.capacity buffer := by
  cases buffer <;> rfl

@[simp] theorem afterHostTurn_buffer (s : State) (rest : List HostOp) (buffer : Buffer) :
    (s.afterHostTurn rest).buffer buffer = s.buffer buffer := by
  cases buffer <;> rfl

/-- Outside BUSY no read is free: the byte is the one that stands in the buffer. -/
theorem bufferByte_of_idle {s : State} (hb : s.busy = false) (buffer : Buffer) (index : Nat) :
    s.bufferByte buffer index = (s.buffer buffer).read index := by
  simp [State.bufferByte, State.freeRead, hb]

theorem hostReadByte_of_unwritten {s : State} {buffer : Buffer} {index : Nat} (hi : index < s.capacity buffer)
    (hu : s.bufferByte buffer index = none) : hostReadByte buffer 8 index s = .fault .unwrittenByteRead := by
  rw [hostReadByte, if_pos (bufferAccessAdmitted_iff.2 ⟨rfl, hi⟩), hu]

theorem hostWriteByte_of_idle {s : State} (hb : s.busy = false) {buffer : Buffer} {index : Nat}
    (hi : index < s.capacity buffer) (v : Byte) :
    hostWriteByte buffer 8 index v s = .next (s.writeBuffer buffer index v) := by
  rw [hostWriteByte, if_pos (bufferAccessAdmitted_iff.2 ⟨rfl, hi⟩), hb, if_neg Bool.false_ne_true]

/-- An unwritten byte in `IN_BUF[0..min(IN_LEN, IN_CAP))` makes the input of a reading command not ready (R43 b). -/
theorem inputReady_of_unwritten {s : State} (hreads : readsInput s.selected = true) {a : Nat}
    (ha : a < min s.inLen.toNat s.inCap) (hu : s.inBuf.read a = none) : s.inputReady = false := by
  have hnone : ¬ (s.inBuf.readBytes 0 (min s.inLen.toNat s.inCap)).isSome = true := fun hsome => by
    have hread := readBytes_isSome.1 hsome a ha
    rw [Nat.zero_add, hu] at hread
    cases hread
  rw [State.inputReady, hreads, Bool.not_true, Bool.false_or]
  exact Bool.eq_false_iff.2 hnone

theorem startCommand_of_not_inputReady {s : State} (h : s.inputReady = false) :
    startCommand s = .refused .unwrittenInput := by
  rw [startCommand, h, if_neg Bool.false_ne_true]

/-! ### What an operation that is taken can do -/

theorem hostReadReg_next {width offset : Nat} {s t : State} (h : hostReadReg width offset s = .next t) :
    registerAccessAdmitted width offset = true ∧ t = s.recordRead (.word (s.readOffset offset)) := by
  unfold hostReadReg at h
  split at h
  · exact ⟨‹_›, (Host.Outcome.next.inj h).symm⟩
  · cases h

theorem hostWriteReg_next {width offset : Nat} {v : Word} {s t : State} (h : hostWriteReg width offset v s = .next t) :
    registerAccessAdmitted width offset = true ∧
      ((Reg.atOffset offset = none ∧ t = s) ∨ ∃ r, Reg.atOffset offset = some r ∧ writeRegister r v s = .next t) := by
  unfold hostWriteReg at h
  split at h
  · refine ⟨‹_›, ?_⟩
    cases hr : Reg.atOffset offset with
    | none =>
      rw [hr] at h
      exact .inl ⟨rfl, (Host.Outcome.next.inj h).symm⟩
    | some r =>
      rw [hr] at h
      exact .inr ⟨r, rfl, h⟩
  · cases h

theorem hostReadByte_next {buffer : Buffer} {width index : Nat} {s t : State}
    (h : hostReadByte buffer width index s = .next t) :
    bufferAccessAdmitted s buffer width index = true ∧
      ∃ b, s.bufferByte buffer index = some b ∧ t = (s.countDraw buffer).recordRead (.byte b) := by
  unfold hostReadByte at h
  split at h
  · refine ⟨‹_›, ?_⟩
    cases hb : s.bufferByte buffer index with
    | none => rw [hb] at h; cases h
    | some b =>
      rw [hb] at h
      exact ⟨b, rfl, (Host.Outcome.next.inj h).symm⟩
  · cases h

theorem hostWriteByte_next {buffer : Buffer} {width index : Nat} {v : Byte} {s t : State}
    (h : hostWriteByte buffer width index v s = .next t) :
    bufferAccessAdmitted s buffer width index = true ∧ s.busy = false ∧ t = s.writeBuffer buffer index v := by
  unfold hostWriteByte at h
  split at h
  · cases hb : s.busy with
    | true => rw [hb, if_pos rfl] at h; cases h
    | false =>
      rw [hb, if_neg Bool.false_ne_true] at h
      exact ⟨‹_›, rfl, (Host.Outcome.next.inj h).symm⟩
  · cases h

theorem hostCopy_next {first count : Nat} {s t : State} (h : hostCopy first count s = .next t) :
    (count = 0 ∧ t = s) ∨
    ∃ left b, count = left + 1 ∧ bufferAccessAdmitted s .output 8 first = true ∧ s.bufferByte .output first = some b ∧
      t = { (s.countDraw .output).recordRead (.byte b) with
        hostQueue := .wrb .input 8 first b :: .copyOutIn (first + 1) left :: s.hostQueue } := by
  cases count with
  | zero => exact .inl ⟨rfl, (Host.Outcome.next.inj h).symm⟩
  | succ left =>
    rw [hostCopy] at h
    split at h
    · refine .inr ⟨left, ?_⟩
      cases hb : s.bufferByte .output first with
      | none => rw [hb] at h; cases h
      | some b =>
        rw [hb] at h
        exact ⟨b, rfl, ‹_›, rfl, (Host.Outcome.next.inj h).symm⟩
    · cases h

/-! ### The host's turn outside BUSY -/

/-- A host read of an unwritten OUT_BUF byte outside BUSY is a fault (R43 a). -/
theorem step_rdb_unwritten {s : State} {a : Nat} {rest : List HostOp} (hb : s.busy = false) (ha : a < s.outCap)
    (hu : s.outBuf.read a = none) (hn : s.HostNext (.rdb .output 8 a) rest) : step s = .fault .unwrittenByteRead := by
  rw [step_of_hostNext hn, hostPerform]
  refine hostReadByte_of_unwritten ha ?_
  rw [bufferByte_of_idle (s := s.afterHostTurn rest) hb]
  exact hu

/-- A START of a reading command with an unwritten byte in its input is refused (R43 b). -/
theorem step_start_unwritten {s : State} {v : Word} {a : Nat} {rest : List HostOp} (hb : s.busy = false)
    (hgo : v.getLsbD 0 = true) (hreads : readsInput s.selected = true) (ha : a < min s.inLen.toNat s.inCap)
    (hu : s.inBuf.read a = none) (hn : s.HostNext (.wr 32 0x20 v) rest) : step s = .refused .unwrittenInput := by
  have hready : (s.afterHostTurn rest).inputReady = false := inputReady_of_unwritten hreads ha hu
  calc step s = writeRegister .start v (s.afterHostTurn rest) := by
        rw [step_of_hostNext hn]
        exact hostWriteReg_offset .start v _
    _ = startCommand (s.afterHostTurn rest) := by
        rw [writeRegister_start_go hgo, afterHostTurn_busy, hb, if_neg Bool.false_ne_true]
    _ = .refused .unwrittenInput := startCommand_of_not_inputReady hready

/-- An admitted host write of a buffer byte outside BUSY is taken, and is the write of that byte. -/
theorem step_wrb {s : State} {buffer : Buffer} {a : Nat} {b : Byte} {rest : List HostOp} (hb : s.busy = false)
    (ha : a < s.capacity buffer) (hn : s.HostNext (.wrb buffer 8 a b) rest) :
    step s = .next ((s.afterHostTurn rest).writeBuffer buffer a b) := by
  rw [step_of_hostNext hn, hostPerform]
  exact hostWriteByte_of_idle (s := s.afterHostTurn rest) hb (by simpa using ha) b

/-! ## While a command is in flight (R55) -/

theorem sameEngine_refl (s : State) : SameEngine s s :=
  ⟨rfl, rfl, rfl, rfl, rfl, rfl, rfl, rfl⟩

theorem sameEngine_busy {s t : State} (h : SameEngine s t) : t.busy = s.busy := by
  obtain ⟨-, -, -, hbusy, -⟩ := h
  exact hbusy

/-- A buffer read changes the host's fields only. -/
theorem sameEngine_byteRead (s : State) (buffer : Buffer) (v : HostValue) (queue : List HostOp) :
    SameEngine s { (s.countDraw buffer).recordRead v with hostQueue := queue } := by
  simp [SameEngine]

/-- A register write that is taken during BUSY is one that is ignored (R130). -/
theorem writeRegister_next_of_busy {r : Reg} {v : Word} {s t : State} (hb : s.busy = true)
    (h : writeRegister r v s = .next t) : t = s := by
  rcases writeRegister_next h with ⟨-, rfl⟩ | ⟨-, -, hidle, -⟩ | ⟨-, hidle, -⟩
  · rfl
  · rw [hb] at hidle; cases hidle
  · rw [hb] at hidle; cases hidle

/-- During BUSY a host operation other than a reset is refused, faults, or leaves the engine as it is (R130, R131). -/
theorem hostPerform_sameEngine_of_busy {op : HostOp} {s t : State} (hb : s.busy = true) (hop : op ≠ .reset)
    (h : hostPerform op s = .next t) : SameEngine s t := by
  cases op with
  | rd width offset =>
    obtain ⟨-, rfl⟩ := hostReadReg_next h
    exact sameEngine_refl s
  | wr width offset v =>
    obtain ⟨-, ⟨-, rfl⟩ | ⟨r, -, hw⟩⟩ := hostWriteReg_next h
    · exact sameEngine_refl t
    · rw [writeRegister_next_of_busy hb hw]
      exact sameEngine_refl s
  | rdb buffer width index =>
    obtain ⟨-, b, -, rfl⟩ := hostReadByte_next h
    exact sameEngine_byteRead s buffer (.byte b) _
  | wrb buffer width index v =>
    obtain ⟨-, hidle, -⟩ := hostWriteByte_next h
    rw [hb] at hidle
    cases hidle
  | wait =>
    cases h
    exact sameEngine_refl s
  | copyOutIn first count =>
    obtain ⟨-, rfl⟩ | ⟨left, b, -, -, -, rfl⟩ := hostCopy_next h
    · exact sameEngine_refl t
    · exact sameEngine_byteRead s .output (.byte b) _
  | reset => exact absurd rfl hop

/-- The host's turn during BUSY: a reset is next, or the engine is left as it is. -/
theorem hostTurn_of_busy {s t : State} (hb : s.busy = true) (hturn : s.turn = .host) (h : step s = .next t) :
    (∃ rest, s.HostNext .reset rest) ∨ SameEngine s t := by
  cases hq : s.hostQueue with
  | nil =>
    rw [step_of_host hturn, hostTurn, afterTurn_hostQueue, hq] at h
    cases h
    exact .inr (sameEngine_refl s)
  | cons op rest =>
    by_cases hop : op = .reset
    · subst hop
      exact .inl ⟨rest, hq, hturn⟩
    · rw [step_of_hostNext ⟨hq, hturn⟩] at h
      exact .inr (hostPerform_sameEngine_of_busy (s := s.afterHostTurn rest) hb hop h)

/-- The engine's turn during BUSY is the completion of the selected command (R54). -/
theorem step_of_completionNext {s : State} (h : s.CompletionNext) : step s = exec s.selected s.afterTurn := by
  obtain ⟨hb, hturn⟩ := h
  rw [step_of_engine hturn, engineTurn, afterTurn_busy, if_pos hb]
  rfl

theorem exec_busy {i : Instr} {s t : State} (h : exec i s = .next t) : t.busy = false := by
  rcases exec_next_shape h with ⟨c, -, rfl⟩ | ⟨out, rHdr, rKey, rPlen, rPoff, rfl⟩ <;> rfl

/-! ## The statements -/

/-- Settles O20, from the two ways a command completes. -/
theorem completionWritesExactlyOutLenBytes : Obligations.CompletionWritesExactlyOutLenBytes := by
  unfold Obligations.CompletionWritesExactlyOutLenBytes
  intro i s t hcaps ht
  have hcompletion := exec_completion hcaps ht
  refine ⟨fun a ha => hcompletion.written_below_outLen hcaps ha, fun a ha => hcompletion.kept_from_outLen hcaps ha,
    fun hcode => ?_⟩
  obtain ⟨hlen, hbuf⟩ := hcompletion.error_writes_nothing hcode
  exact ⟨hlen, fun a => by rw [hbuf]⟩

/-- Settles O40, part by part. -/
theorem unwrittenBytesHaveNoValue : Obligations.UnwrittenBytesHaveNoValue := by
  unfold Obligations.UnwrittenBytesHaveNoValue
  refine ⟨fun inCap outCap a => ⟨rfl, rfl⟩, ?_, ?_, ?_, ?_⟩
  · intro i s t a hcaps ht ha
    exact (exec_completion hcaps ht).written_below_outLen hcaps ha
  · intro s a rest hb ha hu hn
    exact step_rdb_unwritten hb ha hu hn
  · intro s v a rest hb hgo hselected ha hu hn
    have hreads : readsInput s.selected = true := by
      rcases hselected with h | h | h | ⟨u, h⟩ <;> rw [h] <;> rfl
    exact step_start_unwritten hb hgo hreads ha hu hn
  · intro s buffer a b rest hb ha hn
    refine ⟨_, step_wrb hb ha hn, ?_, fun a' ha' => ?_, fun other ho => ?_, ?_, ?_, ?_, ?_⟩
    · rw [writeBuffer_buffer_self, read_write, if_pos rfl]
    · rw [writeBuffer_buffer_self, read_write, if_neg ha', afterHostTurn_buffer]
    · rw [writeBuffer_buffer_other _ ho, afterHostTurn_buffer]
    · rw [writeBuffer_command, afterHostTurn_command]
    · rw [writeBuffer_result, afterHostTurn_result]
    · rw [writeBuffer_code, afterHostTurn_code]
    · rw [writeBuffer_busy, afterHostTurn_busy, hb]

/-- Settles O48, from what each agent's turn can do during BUSY. -/
theorem onlyTheCompletionChangesTheEngine : Obligations.OnlyTheCompletionChangesTheEngine := by
  unfold Obligations.OnlyTheCompletionChangesTheEngine
  intro s t hb ht
  cases hturn : s.turn with
  | host =>
    obtain hreset | hsame := hostTurn_of_busy hb hturn ht
    · exact .inl hreset
    · exact .inr (.inl ⟨(sameEngine_busy hsame).trans hb, hsame⟩)
  | engine =>
    have hnext : s.CompletionNext := ⟨hb, hturn⟩
    rw [step_of_completionNext hnext] at ht
    exact .inr (.inr ⟨exec_busy ht, hnext, ht⟩)

end Sys2Proof.Machine

/-! # Proofs: the encodings (`30_encoding.md`)

The command of a CMD word, the reserved commands, the header that a wire encoding decodes to, then the statements. -/

namespace Sys2Proof.Machine

/-! ## The command of a CMD word (R61) -/

section

variable {w : Word}

theorem decodeCommand_mask (h : w.extractLsb' 0 3 = 1) : decodeCommand w = .mask := by
  rw [decodeCommand, h]; rfl

theorem decodeCommand_hdrEncode (h : w.extractLsb' 0 3 = 2) : decodeCommand w = .hdrEncode := by
  rw [decodeCommand, h]; rfl

theorem decodeCommand_hdrDecode (h : w.extractLsb' 0 3 = 3) : decodeCommand w = .hdrDecode := by
  rw [decodeCommand, h]; rfl

theorem decodeCommand_build (h : w.extractLsb' 0 3 = 4) : decodeCommand w = .build := by
  rw [decodeCommand, h]; rfl

theorem decodeCommand_parse (h : w.extractLsb' 0 3 = 5) : decodeCommand w = .parse (w.getLsbD 8) := by
  rw [decodeCommand, h]; rfl

theorem decodeCommand_reservedOp0 (h : w.extractLsb' 0 3 = 0) : decodeCommand w = .reservedOp0 := by
  rw [decodeCommand, h]; rfl

theorem decodeCommand_reservedOp6 (h : w.extractLsb' 0 3 = 6) : decodeCommand w = .reservedOp6 := by
  rw [decodeCommand, h]; rfl

theorem decodeCommand_reservedOp7 (h : w.extractLsb' 0 3 = 7) : decodeCommand w = .reservedOp7 := by
  rw [decodeCommand, h]; rfl

end

/-! ## The reserved commands (R62) -/

theorem isReserved_iff {i : Instr} : isReserved i = true ↔ i = .reservedOp0 ∨ i = .reservedOp6 ∨ i = .reservedOp7 := by
  simp [isReserved, or_assoc]

theorem isReserved_decodeCommand {w : Word}
    (h : w.extractLsb' 0 3 = 0 ∨ w.extractLsb' 0 3 = 6 ∨ w.extractLsb' 0 3 = 7) : isReserved (decodeCommand w) = true := by
  obtain h0 | h6 | h7 := h
  · rw [decodeCommand_reservedOp0 h0]; rfl
  · rw [decodeCommand_reservedOp6 h6]; rfl
  · rw [decodeCommand_reservedOp7 h7]; rfl

theorem exec_reserved {i : Instr} (h : isReserved i = true) (s : State) : exec i s = .next (raise s .badCommand) := by
  obtain rfl | rfl | rfl := isReserved_iff.1 h <;> rfl

theorem reserved_completesWithError {i : Instr} (h : isReserved i = true) (s : State) :
    CompletesWithError i s .badCommand :=
  completesWithError_of_raise (exec_reserved h s)

theorem readsInput_reserved {i : Instr} (h : isReserved i = true) : readsInput i = false := by
  obtain rfl | rfl | rfl := isReserved_iff.1 h <;> rfl

theorem inputReady_of_not_readsInput {s : State} (h : readsInput s.selected = false) : s.inputReady = true := by
  rw [State.inputReady, h]; rfl

/-! ## The bytes of a wire header (R64 to R67) -/

@[simp] theorem keyField_length (key : Option Word) : (keyField key).length = if key.isSome then 4 else 0 := by
  cases key <;> rfl

/-- A frame header as bytes: bytes 0 and 1, the extended length `ext`, the key if there is one. -/
def wireHeader (flags : FrameFlags) (marker : BitVec 7) (ext : List Byte) (key : Option Word) : List Byte :=
  flags.byte0 :: frameByte1 key.isSome marker :: (ext ++ keyField key)

theorem encode_frameLen16 (flags : FrameFlags) (length : BitVec 16) (key : Option Word) :
    encode (.frameLen16 flags length key) = .frame (wireHeader flags 126 (be16 length) key) := rfl

theorem encode_frameLen64 (flags : FrameFlags) (length : DWord) (key : Option Word) :
    encode (.frameLen64 flags length key) = .frame (wireHeader flags 127 (be64 length) key) := rfl

section

variable (flags : FrameFlags) (marker : BitVec 7) (ext : List Byte) (key : Option Word) (rest : List Byte)

@[simp] theorem wireHeader_length :
    (wireHeader flags marker ext key).length = 2 + ext.length + if key.isSome then 4 else 0 := by
  simp [wireHeader]; omega

theorem slice_wireHeader_ext : slice (wireHeader flags marker ext key ++ rest) 2 (2 + ext.length) = ext := by
  simp [slice, wireHeader, Nat.add_comm 2]

theorem slice_wireHeader_key (k : Word) :
    slice (wireHeader flags marker ext (some k) ++ rest) (2 + ext.length) (2 + ext.length + 4) = be32 k := by
  simp [slice, wireHeader, keyField, Nat.add_comm 2, List.take_append]

end

/-! ## Decoding a wire header (R72, R73, R86) -/

theorem declaredLength_wireHeader16 (flags : FrameFlags) (length : BitVec 16) (key : Option Word) (rest : List Byte) :
    declaredLength (wireHeader flags 126 (be16 length) key ++ rest) 126 = some (length.setWidth 64, 4) := by
  have hfield : slice _ 2 4 = be16 length := slice_wireHeader_ext flags 126 (be16 length) key rest
  have hlong : ¬ (wireHeader flags 126 (be16 length) key ++ rest).length < 4 := by simp; omega
  rw [declaredLength, if_neg (by decide), if_pos (by decide), if_neg hlong, hfield, beval_be16, BitVec.ofNat_toNat]

theorem declaredLength_wireHeader64 (flags : FrameFlags) (length : DWord) (key : Option Word) (rest : List Byte) :
    declaredLength (wireHeader flags 127 (be64 length) key ++ rest) 127 = some (length, 10) := by
  have hfield : slice _ 2 10 = be64 length := slice_wireHeader_ext flags 127 (be64 length) key rest
  have hlong : ¬ (wireHeader flags 127 (be64 length) key ++ rest).length < 10 := by simp; omega
  rw [declaredLength, if_neg (by decide), if_neg (by decide), if_neg hlong, hfield, beval_be64, BitVec.ofNat_toNat,
    BitVec.setWidth_eq]

/-- A wire header whose extended length is wholly there decodes to its own fields, whatever bytes follow it; without a key
the key is `zeros(4)` (R88). -/
theorem hdrDecode_wireHeader {flags : FrameFlags} {marker : BitVec 7} {ext : List Byte} {key : Option Word}
    {rest : List Byte} {plen : DWord}
    (hlength : declaredLength (wireHeader flags marker ext key ++ rest) marker = some (plen, 2 + ext.length)) :
    hdrDecode (wireHeader flags marker ext key ++ rest) =
      some { flags, masked := key.isSome, marker, plen, key := be32 (key.getD 0),
             poff := 2 + ext.length + if key.isSome then 4 else 0 } := by
  have hlong : ¬ (wireHeader flags marker ext key ++ rest).length < 2 + ext.length + if key.isSome then 4 else 0 := by
    simp only [List.length_append, wireHeader_length]; omega
  have hbyte0 : (wireHeader flags marker ext key ++ rest).getD 0 0 = flags.byte0 := rfl
  have hbyte1 : (wireHeader flags marker ext key ++ rest).getD 1 0 = frameByte1 key.isSome marker := rfl
  rw [hdrDecode, if_neg (by omega)]
  simp only [hbyte0, hbyte1, ofByte0_byte0, frameByte1_masked, frameByte1_marker, hlength]
  cases key with
  | none => rfl
  | some k =>
    simp only [Option.isSome_some, if_true] at hlong ⊢
    rw [if_neg hlong, slice_wireHeader_key]
    rfl

/-! ## The encode side is minimal (R68) -/

theorem le_of_lengthMarker_126 {p : DWord} (h : lengthMarker p = 126) : 126 ≤ p.toNat := by
  have hm := lengthMarker_toNat p
  rw [h, show (126 : BitVec 7).toNat = 126 from rfl] at hm
  split at hm <;> omega

theorem le_of_lengthMarker_127 {p : DWord} (h : lengthMarker p = 127) : 65536 ≤ p.toNat := by
  have hm := lengthMarker_toNat p
  rw [h, show (127 : BitVec 7).toNat = 127 from rfl] at hm
  split at hm
  · omega
  · split at hm <;> omega

/-! ## The statements -/

/-- Settles O11, one row of the table of R61 after another. -/
theorem commandIsSelectedByOpAlone : Obligations.CommandIsSelectedByOpAlone := by
  unfold Obligations.CommandIsSelectedByOpAlone
  intro w
  exact ⟨decodeCommand_mask, decodeCommand_hdrEncode, decodeCommand_hdrDecode, decodeCommand_build, decodeCommand_parse,
    decodeCommand_reservedOp0, decodeCommand_reservedOp6, decodeCommand_reservedOp7⟩

/-- Settles O17, from what every reserved command answers and that none reads the input. -/
theorem reservedCodesCompleteWithBadCommand : Obligations.ReservedCodesCompleteWithBadCommand := by
  unfold Obligations.ReservedCodesCompleteWithBadCommand
  refine ⟨fun s => ⟨reserved_completesWithError rfl s, reserved_completesWithError rfl s,
    reserved_completesWithError rfl s⟩, fun s w hop => ?_⟩
  have hreserved : isReserved (decodeCommand w) = true := isReserved_decodeCommand hop
  refine ⟨reserved_completesWithError hreserved s, ?_⟩
  rintro rfl
  exact inputReady_of_not_readsInput (readsInput_reserved hreserved)

/-- Settles O33, from the decode of a wire header of either extended class. -/
theorem nonMinimalLengthsDecode : Obligations.NonMinimalLengthsDecode := by
  unfold Obligations.NonMinimalLengthsDecode
  refine ⟨fun flags key length header rest henc => ?_, fun flags key length header rest henc => ?_,
    fun p => ⟨le_of_lengthMarker_126, le_of_lengthMarker_127⟩⟩
  · obtain rfl : wireHeader flags 126 (be16 length) key = header := by simpa [encode_frameLen16] using henc
    refine ⟨_, hdrDecode_wireHeader (declaredLength_wireHeader16 flags length key rest), rfl, ?_, rfl⟩
    exact BitVec.toNat_setWidth_of_le (by omega)
  · obtain rfl : wireHeader flags 127 (be64 length) key = header := by simpa [encode_frameLen64] using henc
    refine ⟨_, hdrDecode_wireHeader (declaredLength_wireHeader64 flags length key rest), rfl, rfl, rfl, fun hbit => ?_⟩
    have hlength : 2 ^ 63 ≤ length.toNat := Nat.ge_two_pow_of_testBit hbit
    simp only [be64_length]
    omega

end Sys2Proof.Machine

/-! # Proofs: the Masking Engine (`40_masking.md`)

The masking function index by index, its chunked form, what MASK answers in each of its cases, then the statements. -/

namespace Sys2Proof.Machine

/-! ## The masking function (R75) -/

theorem maskFrom_getElem? (key : List Byte) (i : Nat) (data : List Byte) (j : Nat) :
    (maskFrom key i data)[j]? = data[j]?.map (· ^^^ key.getD ((i + j) % 4) 0) := by
  induction data generalizing i j with
  | nil => rfl
  | cons b data ih =>
    cases j with
    | zero => rfl
    | succ j => rw [maskFrom, List.getElem?_cons_succ, List.getElem?_cons_succ, ih, Nat.add_right_comm, Nat.add_assoc]

@[simp] theorem maskf_length (data key : List Byte) : (maskf data key).length = data.length :=
  maskFrom_length key 0 data

theorem maskf_getElem? (data key : List Byte) (i : Nat) :
    (maskf data key)[i]? = data[i]?.map (· ^^^ key.getD (i % 4) 0) := by
  rw [maskf, maskFrom_getElem?, Nat.zero_add]

/-- The masking depends on the index of the first byte modulo 4 only (R77). -/
theorem maskFrom_congr_mod {i j : Nat} (h : i % 4 = j % 4) (key data : List Byte) :
    maskFrom key i data = maskFrom key j data := by
  refine List.ext_getElem? fun k => ?_
  rw [maskFrom_getElem?, maskFrom_getElem?, Nat.add_mod, h, ← Nat.add_mod]

theorem maskFrom_eq_maskf {i : Nat} (h : i % 4 = 0) (key data : List Byte) : maskFrom key i data = maskf data key :=
  maskFrom_congr_mod h key data

/-! ## Laws of the masking function (R78) -/

theorem maskf_maskf (data key : List Byte) : maskf (maskf data key) key = data := by
  refine List.ext_getElem? fun i => ?_
  rw [maskf_getElem?, maskf_getElem?, Option.map_map]
  have hcancel : (· ^^^ key.getD (i % 4) 0) ∘ (· ^^^ key.getD (i % 4) 0) = (id : Byte → Byte) :=
    funext fun b => by simp
  rw [hcancel, Option.map_id_fun, id]

theorem maskf_zeroKey (data : List Byte) : maskf data [0, 0, 0, 0] = data := by
  refine List.ext_getElem? fun i => ?_
  have hkey : ([0, 0, 0, 0] : List Byte).getD (i % 4) 0 = 0 :=
    List.getD_replicate (n := 4) (x := (0 : Byte)) (Nat.mod_lt i (by decide))
  rw [maskf_getElem?, hkey]
  simp

theorem maskf_take (data key : List Byte) (j : Nat) : maskf (data.take j) key = (maskf data key).take j := by
  refine List.ext_getElem? fun i => ?_
  rw [maskf_getElem?, List.getElem?_take, List.getElem?_take]
  split
  · rw [maskf_getElem?]
  · rfl

theorem maskf_append {a : List Byte} (h : a.length % 4 = 0) (b key : List Byte) :
    maskf (a ++ b) key = maskf a key ++ maskf b key := by
  have hphase : (0 + a.length) % 4 = 0 := by omega
  rw [maskf, maskFrom_append, maskFrom_eq_maskf hphase, ← maskf]

/-! ## The chunked datapath (R76) -/

theorem replicatedKey_getElem? {width j : Nat} (h : j < width) (key : List Byte) :
    (replicatedKey key width)[j]? = some (key.getD (j % 4) 0) := by
  rw [replicatedKey, List.getElem?_map, List.getElem?_range h, Option.map_some]

/-- One chunk, lane by lane. -/
theorem zipWith_replicatedKey {width : Nat} {chunk : List Byte} (h : chunk.length ≤ width) (key : List Byte) :
    List.zipWith (· ^^^ ·) chunk (replicatedKey key width) = maskf chunk key := by
  refine List.ext_getElem? fun j => ?_
  rw [List.getElem?_zipWith, maskf_getElem?]
  cases hb : chunk[j]? with
  | none => rfl
  | some b =>
    have hj : j < chunk.length := (List.getElem?_eq_some_iff.1 hb).1
    rw [replicatedKey_getElem? (by omega)]
    rfl

theorem maskChunks_eq_maskf {width : Nat} (hwidth : width % 4 = 0) (key : List Byte) {count : Nat} {data : List Byte}
    (h : count * width ≤ data.length) : maskChunks key width count data = maskf (data.take (count * width)) key := by
  induction count generalizing data with
  | zero => rw [Nat.zero_mul]; rfl
  | succ count ih =>
    rw [Nat.succ_mul] at h
    have hchunk : (data.take width).length = width := List.length_take_of_le (by omega)
    have hrest : count * width ≤ (data.drop width).length := by rw [List.length_drop]; omega
    calc maskChunks key width (count + 1) data
        = maskf (data.take width) key ++ maskf ((data.drop width).take (count * width)) key := by
          rw [maskChunks, zipWith_replicatedKey hchunk.le, ih hrest]
      _ = maskf (data.take width ++ (data.drop width).take (count * width)) key :=
          (maskf_append (by rw [hchunk, hwidth]) _ key).symm
      _ = maskf (data.take ((count + 1) * width)) key := by
          rw [← List.take_add, Nat.succ_mul, Nat.add_comm width]

theorem maskWide_eq_maskf {width : Nat} (hwidth : width % 4 = 0) (data key : List Byte) :
    maskWide width data key = maskf data key := by
  have hwhole : data.length / width * width ≤ data.length := Nat.div_mul_le_self _ _
  have hlength : (data.take (data.length / width * width)).length = data.length / width * width :=
    List.length_take_of_le hwhole
  have hphase : data.length / width * width % 4 = 0 := by rw [Nat.mul_mod, hwidth, Nat.mul_zero, Nat.zero_mod]
  simp only [maskWide]
  rw [maskChunks_eq_maskf hwidth key hwhole, maskFrom_eq_maskf hphase, ← maskf_append (by rw [hlength, hphase]),
    List.take_append_drop]

/-! ## The key register (R27) -/

theorem be32_getD_mod (key : Word) (i : Nat) : (be32 key).getD (i % 4) 0 = keyByteAt key i := by
  have hi : i % 4 < 4 := Nat.mod_lt _ (by decide)
  unfold keyByteAt
  generalize i % 4 = j at hi
  interval_cases j <;> rfl

theorem maskf_keyBytes_getElem? (data : List Byte) (s : State) (i : Nat) :
    (maskf data s.keyBytes)[i]? = data[i]?.map (· ^^^ keyByteAt s.command.key i) := by
  rw [maskf_getElem?, State.keyBytes, be32_getD_mod]

/-! ## Completion with OK (R113) -/

theorem keepsInputs_finishOk (s : State) (out : List Byte) (rHdr rKey : Word) (rPlen : DWord) (rPoff : Word) :
    KeepsInputs s (finishOk s out rHdr rKey rPlen rPoff) :=
  ⟨rfl, rfl, rfl, rfl, rfl, rfl, rfl, rfl⟩

theorem completedOkPlain_finishOk (s : State) (out : List Byte) : CompletedOkPlain s (finishOk s out) :=
  ⟨⟨rfl, rfl, keepsInputs_finishOk s out 0 0 0 0⟩, rfl, rfl, finishOk_rPlen s out 0 0 0 0, rfl⟩

/-! ## MASK, case by case (R79 to R81) -/

section

variable {s : State}

theorem exec_mask_of_inCap_lt (h : s.inCap < s.inLen.toNat) : exec .mask s = .next (raise s .badCommand) :=
  if_pos h

theorem exec_mask_of_keyLength_ne (hin : s.inLen.toNat ≤ s.inCap) (hkey : s.keyLength ≠ 4) :
    exec .mask s = .next (raise s .invalidMaskKey) := by
  rw [exec, execMask, if_neg (by omega), if_pos hkey]

theorem exec_mask_of_outCap_lt (hin : s.inLen.toNat ≤ s.inCap) (hkey : s.keyLength = 4)
    (hout : s.outCap < s.inLen.toNat) : exec .mask s = .next (raise s .allocationFailure) := by
  rw [exec, execMask, if_neg (by omega), if_neg (by omega), if_pos hout]

theorem exec_mask_of_input {data : List Byte} (hin : s.inLen.toNat ≤ s.inCap) (hkey : s.keyLength = 4)
    (hout : s.inLen.toNat ≤ s.outCap) (hdata : s.inBuf.readBytes 0 s.inLen.toNat = some data) :
    exec .mask s = .next (finishOk s (maskf data s.keyBytes)) := by
  rw [exec, execMask, if_neg (by omega), if_neg (by omega), if_neg (by omega), withInput_of_readBytes hdata]

end

/-- The bytes of `IN_BUF[0..n)` when all are written. -/
theorem readBytes_zero_of_written {m : Memory} {n : Nat} (h : ∀ i < n, (m.read i).isSome = true) :
    ∃ data, m.readBytes 0 n = some data ∧ data.length = n ∧ ∀ i < n, m.read i = data[i]? := by
  obtain ⟨data, hdata⟩ := Option.isSome_iff_exists.1 (readBytes_isSome.2 fun i hi => by rw [Nat.zero_add]; exact h i hi)
  obtain ⟨hlength, hbytes⟩ := readBytes_eq_some.1 hdata
  exact ⟨data, hdata, hlength, fun i hi => by rw [← hbytes i hi, Nat.zero_add]⟩

/-! ## The statements -/

/-- Settles O28, from the masking of bytes that begin at any index. -/
theorem maskfXorsEachByteWithKeyIndexMod4 : Obligations.MaskfXorsEachByteWithKeyIndexMod4 := by
  unfold Obligations.MaskfXorsEachByteWithKeyIndexMod4
  exact fun data key _ => ⟨maskf_length data key, maskf_getElem? data key⟩

/-- Settles O29: a whole chunk has a length that is a multiple of 4, so the key index restarts in phase after it. -/
theorem chunkedMaskingEqualsMaskf : Obligations.ChunkedMaskingEqualsMaskf := by
  unfold Obligations.ChunkedMaskingEqualsMaskf
  exact fun width data key _ hwidth _ => maskWide_eq_maskf hwidth data key

/-- Settles O30; the concatenation law fails after a single byte, where the second part is to go on with `key[1]`. -/
theorem maskfLaws : Obligations.MaskfLaws := by
  unfold Obligations.MaskfLaws
  refine ⟨fun data key _ => maskf_maskf data key, maskf_zeroKey, fun data key j _ _ => maskf_take data key j,
    fun a b key _ ha => maskf_append ha b key, ?_⟩
  exact ⟨[0], [0], [1, 2, 3, 4], by decide⟩

/-- Settles O12, from what MASK answers in each of its four cases. -/
theorem maskXorsInputWithRepeatingKey : Obligations.MaskXorsInputWithRepeatingKey := by
  unfold Obligations.MaskXorsInputWithRepeatingKey
  refine fun s => ⟨fun hin => completesWithError_of_raise (exec_mask_of_inCap_lt hin),
    fun hin hkey => completesWithError_of_raise (exec_mask_of_keyLength_ne hin hkey),
    fun hin hkey hout => completesWithError_of_raise (exec_mask_of_outCap_lt hin hkey hout),
    fun hin hkey hout hwritten => ?_⟩
  obtain ⟨data, hdata, hlength, hbytes⟩ := readBytes_zero_of_written hwritten
  have hmasked : (maskf data s.keyBytes).length = s.inLen.toNat := by rw [maskf_length, hlength]
  refine ⟨_, exec_mask_of_input hin hkey hout hdata, completedOkPlain_finishOk s _, ?_, fun i hi => ?_, fun i hi => ?_⟩
  · rw [finishOk_outLen, hmasked, BitVec.ofNat_toNat, BitVec.setWidth_eq]
  · rw [finishOk_outBuf, read_writeBytes_inside _ _ (hmasked ▸ hi), maskf_keyBytes_getElem?, hbytes i hi]
  · rw [finishOk_outBuf, read_writeBytes_outside _ _ (hmasked ▸ hi)]

end Sys2Proof.Machine

/-! # Proofs: the header codec (`41_header_codec.md`)

The decoder in terms of the raw bytes, the encoder byte by byte, big-endian values with one spelling per length, what
HDR_DECODE answers in each of its cases, then the statements. -/

namespace Sys2Proof.Machine

/-! ## The declared length (R66, R67) -/

theorem toNat_ofNat_of_lt {w n : Nat} (h : n < 2 ^ w) : (BitVec.ofNat w n).toNat = n := by
  rw [BitVec.toNat_ofNat, Nat.mod_eq_of_lt h]

theorem wireHeaderLength_bounds (marker : Nat) : 2 ≤ wireHeaderLength marker ∧ wireHeaderLength marker ≤ 10 := by
  unfold wireHeaderLength
  split
  · omega
  · split <;> omega

/-- The header length of byte 1 of a frame: it depends on the marker in bits 6:0. -/
def byteHeaderLength (byte1 : Byte) : Nat :=
  wireHeaderLength (byte1.toNat % 128)

/-- The payload length the bytes of a frame declare: the marker itself, or the extended field behind it. -/
def wireLength (buf : List Byte) : Nat :=
  let byte1 := buf.getD 1 0
  if byte1.toNat % 128 ≤ 125 then byte1.toNat % 128 else beval (slice buf 2 (byteHeaderLength byte1))

theorem slice_length_le (l : List Byte) (a b : Nat) : (slice l a b).length ≤ b - a := by
  rw [slice, List.length_drop, List.length_take]
  omega

theorem beval_lt_of_length_le {l : List Byte} {n : Nat} (h : l.length ≤ n) : beval l < 256 ^ n :=
  (beval_lt l).trans_le (Nat.pow_le_pow_right (by decide) h)

theorem wireLength_lt (buf : List Byte) : wireLength buf < 2 ^ 64 := by
  simp only [wireLength]
  split
  · omega
  · have hfield := slice_length_le buf 2 (byteHeaderLength (buf.getD 1 0))
    have hbound := (wireHeaderLength_bounds ((buf.getD 1 0).toNat % 128)).2
    exact beval_lt_of_length_le (n := 8) (by unfold byteHeaderLength at hfield ⊢; omega)

/-- The length is declared exactly when the whole header is there, the key aside. -/
theorem declaredLength_eq {buf : List Byte} (hlong : 2 ≤ buf.length) :
    declaredLength buf ((buf.getD 1 0).extractLsb' 0 7) =
      if buf.length < byteHeaderLength (buf.getD 1 0) then none
      else some (BitVec.ofNat 64 (wireLength buf), byteHeaderLength (buf.getD 1 0)) := by
  simp only [declaredLength, wireLength, byteHeaderLength, wireHeaderLength, ← marker_eq_mod]
  split
  · rw [if_neg (by omega), BitVec.ofNat_toNat]
  · split <;> rfl

/-! ## `hdr_decode` from the raw bytes (R86 to R88) -/

/-- Where the payload begins, from byte 1: after the header and, when bit 7 is set, the 4 key bytes. -/
def payloadOffset (byte1 : Byte) : Nat :=
  if 128 ≤ byte1.toNat then byteHeaderLength byte1 + 4 else byteHeaderLength byte1

/-- No header with its key is longer than the 14 bytes HDR_DECODE reads. -/
theorem payloadOffset_le (byte1 : Byte) : payloadOffset byte1 ≤ 14 := by
  have hbound := (wireHeaderLength_bounds (byte1.toNat % 128)).2
  unfold payloadOffset byteHeaderLength
  split <;> omega

/-- The fields of the header at the front of a byte sequence, when it is wholly there. -/
def rawHeader (buf : List Byte) : Header :=
  let byte1 := buf.getD 1 0
  let hl := byteHeaderLength byte1
  { flags := .ofByte0 (buf.getD 0 0)
    masked := byte1.getLsbD 7
    marker := byte1.extractLsb' 0 7
    plen := BitVec.ofNat 64 (wireLength buf)
    key := if 128 ≤ byte1.toNat then slice buf hl (hl + 4) else [0, 0, 0, 0]
    poff := payloadOffset byte1 }

theorem marker_rawHeader (buf : List Byte) : (rawHeader buf).marker.toNat = (buf.getD 1 0).toNat % 128 :=
  marker_eq_mod _

/-- `hdr_decode` fails when bytes 0 and 1, or the header with its key, are not whole, and otherwise gives the raw fields. -/
theorem hdrDecode_eq (buf : List Byte) :
    hdrDecode buf =
      if buf.length < 2 ∨ buf.length < payloadOffset (buf.getD 1 0) then none else some (rawHeader buf) := by
  by_cases hshort : buf.length < 2
  · rw [hdrDecode, if_pos hshort, if_pos (.inl hshort)]
  · rw [hdrDecode, if_neg hshort]
    simp only [declaredLength_eq (not_lt.1 hshort), masked_eq_decide, rawHeader, payloadOffset, decide_eq_true_eq]
    by_cases hheader : buf.length < byteHeaderLength (buf.getD 1 0)
    · rw [if_pos hheader, if_pos (.inr (by split <;> omega))]
    · rw [if_neg hheader]
      by_cases hmasked : 128 ≤ (buf.getD 1 0).toNat
      · simp only [if_pos hmasked, hshort, false_or]
      · simp only [if_neg hmasked, hshort, hheader, or_self, if_false]

theorem hdrDecode_eq_none {buf : List Byte} :
    hdrDecode buf = none ↔ buf.length < 2 ∨ buf.length < payloadOffset (buf.getD 1 0) := by
  rw [hdrDecode_eq, ite_eq_left_iff]
  exact ⟨fun h => not_not.1 fun hwhole => Option.some_ne_none _ (h hwhole), fun h hwhole => absurd h hwhole⟩

theorem hdrDecode_of_whole {buf : List Byte} (hlong : 2 ≤ buf.length)
    (hwhole : payloadOffset (buf.getD 1 0) ≤ buf.length) : hdrDecode buf = some (rawHeader buf) := by
  rw [hdrDecode_eq, if_neg (by omega)]

theorem hdrDecode_eq_some {buf : List Byte} {h : Header} (hd : hdrDecode buf = some h) :
    2 ≤ buf.length ∧ payloadOffset (buf.getD 1 0) ≤ buf.length ∧ h = rawHeader buf := by
  rw [hdrDecode_eq] at hd
  split at hd
  · cases hd
  · cases hd
    exact ⟨by omega, by omega, rfl⟩

/-! ## The result registers of a raw header (R34 to R37) -/

theorem headerWord_rawHeader (buf : List Byte) :
    (headerWord (rawHeader buf).flags (rawHeader buf).masked (rawHeader buf).marker).toNat =
      (buf.getD 1 0).toNat * 256 + (buf.getD 0 0).toNat := by
  rw [headerWord_toNat]
  simp only [rawHeader, frameByte1_eta, byte0_ofByte0]

theorem keyWord_rawHeader (buf : List Byte) :
    (keyWord (rawHeader buf).key).toNat =
      let hl := byteHeaderLength (buf.getD 1 0)
      if 128 ≤ (buf.getD 1 0).toNat then beval (slice buf hl (hl + 4)) else 0 := by
  simp only [rawHeader, keyWord]
  split
  · have hfield := slice_length_le buf (byteHeaderLength (buf.getD 1 0)) (byteHeaderLength (buf.getD 1 0) + 4)
    exact toNat_ofNat_of_lt (beval_lt_of_length_le (n := 4) (by omega))
  · rfl

theorem plen_rawHeader (buf : List Byte) : (rawHeader buf).plen.toNat = wireLength buf :=
  toNat_ofNat_of_lt (wireLength_lt buf)

theorem poff_rawHeader (buf : List Byte) :
    (BitVec.ofNat 32 (rawHeader buf).poff).toNat = payloadOffset (buf.getD 1 0) := by
  have hbound := payloadOffset_le (buf.getD 1 0)
  exact toNat_ofNat_of_lt (show payloadOffset (buf.getD 1 0) < 2 ^ 32 by omega)

/-! ## HDR_DECODE, case by case (R89, R90) -/

section

variable {s : State} {data : List Byte}

theorem exec_hdrDecode_of_inCap_lt (h : s.inCap < s.inLen.toNat) : exec .hdrDecode s = .next (raise s .badCommand) :=
  if_pos h

theorem exec_hdrDecode_of_none (hin : s.inLen.toNat ≤ s.inCap)
    (hdata : s.inBuf.readBytes 0 (min s.inLen.toNat 14) = some data) (hd : hdrDecode data = none) :
    exec .hdrDecode s = .next (raise s .truncatedFrame) := by
  rw [exec, execHdrDecode, if_neg (by omega), withInput_of_readBytes hdata, hd]

theorem exec_hdrDecode_of_some {h : Header} (hin : s.inLen.toNat ≤ s.inCap)
    (hdata : s.inBuf.readBytes 0 (min s.inLen.toNat 14) = some data) (hd : hdrDecode data = some h) :
    exec .hdrDecode s = .next (finishDecoded s [] h) := by
  rw [exec, execHdrDecode, if_neg (by omega), withInput_of_readBytes hdata, hd]

end

/-! ## Big-endian values (R13) -/

theorem beval_concat (l : List Byte) (b : Byte) : beval (l ++ [b]) = beval l * 256 + b.toNat := by
  rw [beval, List.foldl_append]
  rfl

/-- Byte sequences of one length with the same value are the same. -/
theorem eq_of_beval_eq {l l' : List Byte} (hlength : l.length = l'.length) (hvalue : beval l = beval l') : l = l' := by
  induction l using List.reverseRecOn generalizing l' with
  | nil => exact (List.length_eq_zero_iff.1 hlength.symm).symm
  | append_singleton l b ih =>
    cases l' using List.reverseRecOn with
    | nil => simp at hlength
    | append_singleton l' b' =>
      rw [beval_concat, beval_concat] at hvalue
      have hb := b.isLt
      have hb' := b'.isLt
      have hfront : l = l' := ih (by simpa using hlength) (by omega)
      have hlast : b = b' := BitVec.eq_of_toNat_eq (by omega)
      rw [hfront, hlast]

theorem be16_getElem? (v : BitVec 16) {j : Nat} (hj : j < 2) :
    (be16 v)[j]? = some (BitVec.ofNat 8 (v.toNat / 256 ^ (1 - j))) := by
  rw [show (256 : Nat) = 2 ^ 8 from rfl, ← pow_mul, ← extractByte_eq_ofNat]
  interval_cases j <;> rfl

theorem be64_getElem? (v : DWord) {j : Nat} (hj : j < 8) :
    (be64 v)[j]? = some (BitVec.ofNat 8 (v.toNat / 256 ^ (7 - j))) := by
  rw [show (256 : Nat) = 2 ^ 8 from rfl, ← pow_mul, ← extractByte_eq_ofNat]
  interval_cases j <;> rfl

/-! ## The minimal extension of a length (R68) -/

theorem lengthExt_of_le_125 {p : DWord} (h : p.toNat ≤ 125) : lengthExt p = [] := by
  rw [lengthExt, if_pos h]

theorem lengthExt_of_le_65535 {p : DWord} (h : 125 < p.toNat) (h' : p.toNat ≤ 65535) :
    lengthExt p = be16 (p.setWidth 16) := by
  rw [lengthExt, if_neg (by omega), if_pos h']

theorem lengthExt_of_gt_65535 {p : DWord} (h : 65535 < p.toNat) : lengthExt p = be64 p := by
  rw [lengthExt, if_neg (by omega), if_neg (by omega)]

theorem lengthMarker_of_le_65535 {p : DWord} (h : 125 < p.toNat) (h' : p.toNat ≤ 65535) : lengthMarker p = 126 := by
  rw [lengthMarker, if_neg (by omega), if_pos h']

theorem lengthMarker_of_gt_65535 {p : DWord} (h : 65535 < p.toNat) : lengthMarker p = 127 := by
  rw [lengthMarker, if_neg (by omega), if_neg (by omega)]

theorem toNat_setWidth_16 {p : DWord} (h : p.toNat ≤ 65535) : (p.setWidth 16).toNat = p.toNat := by
  rw [BitVec.toNat_setWidth, Nat.mod_eq_of_lt (by omega)]

theorem lengthExt_length (p : DWord) : (lengthExt p).length = headerLength p - 2 := by
  rw [headerLength]; omega

theorem lengthExt_getElem? (p : DWord) {j : Nat} (hj : j < headerLength p - 2) :
    (lengthExt p)[j]? = some (BitVec.ofNat 8 (p.toNat / 256 ^ (headerLength p - 3 - j))) := by
  rw [← lengthExt_length] at hj
  rw [show headerLength p - 3 - j = (lengthExt p).length - 1 - j by rw [headerLength]; omega]
  obtain h | ⟨h, h'⟩ | h : p.toNat ≤ 125 ∨ (125 < p.toNat ∧ p.toNat ≤ 65535) ∨ 65535 < p.toNat := by omega
  · rw [lengthExt_of_le_125 h] at hj
    exact absurd hj (Nat.not_lt_zero j)
  · rw [lengthExt_of_le_65535 h h'] at hj ⊢
    rw [be16_getElem? _ hj, toNat_setWidth_16 h']
    rfl
  · rw [lengthExt_of_gt_65535 h] at hj ⊢
    exact be64_getElem? p hj

theorem beval_lengthExt {p : DWord} (h : 125 < p.toNat) : beval (lengthExt p) = p.toNat := by
  by_cases h' : p.toNat ≤ 65535
  · rw [lengthExt_of_le_65535 h h', beval_be16, toNat_setWidth_16 h']
  · rw [lengthExt_of_gt_65535 (by omega), beval_be64]

theorem lengthMarker_le_125_iff (p : DWord) : (lengthMarker p).toNat ≤ 125 ↔ p.toNat ≤ 125 := by
  rw [lengthMarker_toNat]
  split_ifs <;> omega

/-- The marker of the minimal encoding gives the length of the minimal encoding. -/
theorem wireHeaderLength_lengthMarker (p : DWord) : wireHeaderLength (lengthMarker p).toNat = headerLength p := by
  rw [lengthMarker_toNat, headerLength_eq, wireHeaderLength]
  split_ifs <;> omega

/-! ## `hdr_encode` byte by byte (R82) -/

theorem hdrEncode_getElem?_zero (s : State) (masked : Bool) (p : DWord) :
    (hdrEncode s.frameFlags masked p)[0]? = some (s.command.flags.extractLsb' 0 8) := by
  rw [← byte0_frameFlags]
  rfl

theorem hdrEncode_getElem?_one (flags : FrameFlags) (masked : Bool) (p : DWord) :
    (hdrEncode flags masked p)[1]? =
      some (BitVec.ofNat 8 ((if masked then 128 else 0) + (lengthMarker p).toNat)) := by
  rw [← frameByte1_toNat, BitVec.ofNat_toNat, BitVec.setWidth_eq]
  rfl

theorem hdrEncode_getElem?_ext (flags : FrameFlags) (masked : Bool) (p : DWord) {j : Nat}
    (hj : j < headerLength p - 2) :
    (hdrEncode flags masked p)[2 + j]? = some (BitVec.ofNat 8 (p.toNat / 256 ^ (headerLength p - 3 - j))) := by
  rw [← lengthExt_getElem? p hj, Nat.add_comm]
  rfl

/-! ## Decoding what was encoded (R91) -/

theorem exists_be32_eq {key : List Byte} (h : key.length = 4) : ∃ w : Word, be32 w = key := by
  obtain ⟨a, b, c, d, rfl⟩ := List.length_eq_four.1 h
  exact ⟨a ++ b ++ c ++ d, be32_append a b c d⟩

theorem hdrEncode_append_keyField (flags : FrameFlags) (key : Option Word) (p : DWord) :
    hdrEncode flags key.isSome p ++ keyField key = wireHeader flags (lengthMarker p) (lengthExt p) key := rfl

theorem declaredLength_minimalHeader (flags : FrameFlags) (p : DWord) (key : Option Word) (rest : List Byte) :
    declaredLength (wireHeader flags (lengthMarker p) (lengthExt p) key ++ rest) (lengthMarker p) =
      some (p, headerLength p) := by
  rw [headerLength]
  obtain h | ⟨h, h'⟩ | h : p.toNat ≤ 125 ∨ (125 < p.toNat ∧ p.toNat ≤ 65535) ∨ 65535 < p.toNat := by omega
  · have hmarker : (lengthMarker p).toNat = p.toNat := by rw [lengthMarker_toNat, if_pos h]
    have hplen : (lengthMarker p).setWidth 64 = p := by
      rw [← BitVec.ofNat_toNat, hmarker, BitVec.ofNat_toNat, BitVec.setWidth_eq]
    rw [declaredLength, if_pos (by omega), hplen, lengthExt_of_le_125 h]
    rfl
  · have hplen : (p.setWidth 16).setWidth 64 = p := by
      rw [← BitVec.ofNat_toNat, toNat_setWidth_16 h', BitVec.ofNat_toNat, BitVec.setWidth_eq]
    rw [lengthMarker_of_le_65535 h h', lengthExt_of_le_65535 h h', declaredLength_wireHeader16, hplen]
    rfl
  · rw [lengthMarker_of_gt_65535 h, lengthExt_of_gt_65535 h, declaredLength_wireHeader64]
    rfl

/-- A minimal header, its key and any bytes after it decode to the header's own fields. -/
theorem hdrDecode_hdrEncode (flags : FrameFlags) (p : DWord) (key : Option Word) (rest : List Byte) :
    hdrDecode (hdrEncode flags key.isSome p ++ keyField key ++ rest) =
      some { flags, masked := key.isSome, marker := lengthMarker p, plen := p, key := be32 (key.getD 0),
             poff := headerLength p + if key.isSome then 4 else 0 } := by
  rw [hdrEncode_append_keyField]
  exact hdrDecode_wireHeader (declaredLength_minimalHeader flags p key rest)

/-! ## Encoding what was decoded (R91) -/

theorem take_eq_cons_cons_slice {buf : List Byte} {n : Nat} (hlong : 2 ≤ buf.length) (hn : 2 ≤ n) :
    buf.take n = buf.getD 0 0 :: buf.getD 1 0 :: slice buf 2 n := by
  match buf, n with
  | b0 :: b1 :: body, n + 2 => rfl

theorem frameByte1_injective {masked : Bool} {marker marker' : BitVec 7}
    (h : frameByte1 masked marker = frameByte1 masked marker') : marker = marker' := by
  rw [← frameByte1_marker masked marker, h, frameByte1_marker]

/-- The extended field of a header with the minimal marker is the minimal extension. -/
theorem slice_eq_lengthExt {buf : List Byte} (hwhole : byteHeaderLength (buf.getD 1 0) ≤ buf.length)
    (hmarker : (rawHeader buf).marker = lengthMarker (rawHeader buf).plen) :
    slice buf 2 (byteHeaderLength (buf.getD 1 0)) = lengthExt (rawHeader buf).plen := by
  have hlength : byteHeaderLength (buf.getD 1 0) = headerLength (rawHeader buf).plen := by
    rw [← wireHeaderLength_lengthMarker, ← hmarker, marker_rawHeader, byteHeaderLength]
  have hfield : (slice buf 2 (byteHeaderLength (buf.getD 1 0))).length = (lengthExt (rawHeader buf).plen).length := by
    rw [slice_length hwhole, lengthExt_length, hlength]
  by_cases hliteral : (rawHeader buf).plen.toNat ≤ 125
  · rw [lengthExt_of_le_125 hliteral] at hfield ⊢
    exact List.length_eq_zero_iff.1 hfield
  · refine eq_of_beval_eq hfield ?_
    have hextended : ¬ (buf.getD 1 0).toNat % 128 ≤ 125 := by
      rwa [← marker_rawHeader, hmarker, lengthMarker_le_125_iff]
    rw [beval_lengthExt (not_le.1 hliteral), plen_rawHeader, wireLength, if_neg hextended]

theorem hdrEncode_rawHeader_iff {buf : List Byte} (hlong : 2 ≤ buf.length)
    (hwhole : byteHeaderLength (buf.getD 1 0) ≤ buf.length) :
    hdrEncode (rawHeader buf).flags (rawHeader buf).masked (rawHeader buf).plen =
        buf.take (wireHeaderLength (rawHeader buf).marker.toNat) ↔
      (rawHeader buf).marker = lengthMarker (rawHeader buf).plen := by
  have hhl : wireHeaderLength (rawHeader buf).marker.toNat = byteHeaderLength (buf.getD 1 0) :=
    congrArg wireHeaderLength (marker_rawHeader buf)
  have hbyte0 : (rawHeader buf).flags.byte0 = buf.getD 0 0 := byte0_ofByte0 _
  have hbyte1 : frameByte1 (rawHeader buf).masked (rawHeader buf).marker = buf.getD 1 0 := frameByte1_eta _
  have hmin : 2 ≤ byteHeaderLength (buf.getD 1 0) := (wireHeaderLength_bounds _).1
  rw [hhl, take_eq_cons_cons_slice hlong hmin, hdrEncode, hbyte0]
  constructor
  · intro h
    have hsame : frameByte1 (rawHeader buf).masked (lengthMarker (rawHeader buf).plen) = buf.getD 1 0 :=
      (List.cons.inj (List.cons.inj h).2).1
    exact frameByte1_injective (hbyte1.trans hsame.symm)
  · intro h
    rw [slice_eq_lengthExt hwhole h, ← h, hbyte1]

/-! ## The statements -/

/-- Settles O32: the encode side writes a wire header with the minimal extension, and the decode side's length field equals
that extension exactly when the marker does. -/
theorem headerEncodeDecodeRoundTrip : Obligations.HeaderEncodeDecodeRoundTrip := by
  unfold Obligations.HeaderEncodeDecodeRoundTrip
  refine ⟨fun flags masked p key rest hkey => ?_, fun buf h hd => ?_⟩
  · obtain ⟨w, rfl⟩ := exists_be32_eq hkey
    cases masked with
    | false => exact hdrDecode_hdrEncode flags p none rest
    | true => exact hdrDecode_hdrEncode flags p (some w) rest
  · obtain ⟨hlong, hwhole, rfl⟩ := hdrDecode_eq_some hd
    refine hdrEncode_rawHeader_iff hlong (le_trans ?_ hwhole)
    unfold payloadOffset
    split <;> omega

/-- Settles O13, from the bytes of `hdr_encode` and the completion that writes them. -/
theorem hdrEncodeWritesMinimalHeader : Obligations.HdrEncodeWritesMinimalHeader := by
  unfold Obligations.HdrEncodeWritesMinimalHeader
  intro s
  simp only [← headerLength_eq, ← lengthMarker_toNat]
  have hlength : (hdrEncode s.frameFlags s.maskedFlag s.plen).length = headerLength s.plen := hdrEncode_length _ _ _
  obtain ⟨hmin, hmax⟩ := headerLength_bounds s.plen
  refine ⟨_, rfl, completedOkPlain_finishOk s _, ?_, ?_, ?_, fun j hj => ?_, fun a ha => ?_⟩
  · rw [finishOk_outLen, hlength]
    exact toNat_ofNat_of_lt (by omega)
  · rw [finishOk_outBuf, read_writeBytes_inside _ _ (by omega), hdrEncode_getElem?_zero]
  · rw [finishOk_outBuf, read_writeBytes_inside _ _ (by omega), hdrEncode_getElem?_one]
    rfl
  · rw [finishOk_outBuf, read_writeBytes_inside _ _ (by omega), hdrEncode_getElem?_ext _ _ _ hj]
  · rw [finishOk_outBuf, read_writeBytes_outside _ _ (by omega)]

/-- Settles O14: the 14 bytes that are read hold every header with its key, so the checks on them are checks on IN_LEN. -/
theorem hdrDecodeReportsHeaderFields : Obligations.HdrDecodeReportsHeaderFields := by
  unfold Obligations.HdrDecodeReportsHeaderFields
  refine fun s => ⟨fun hin => completesWithError_of_raise (exec_hdrDecode_of_inCap_lt hin), fun d hin hdata => ?_⟩
  have hlength : d.length = min s.inLen.toNat 14 := (readBytes_eq_some.1 hdata).1
  have hoffset := payloadOffset_le (d.getD 1 0)
  refine ⟨fun htruncated => ?_, fun hlong hwhole => ?_⟩
  · have hshort : s.inLen.toNat < 2 ∨ s.inLen.toNat < payloadOffset (d.getD 1 0) := htruncated
    have hnone : hdrDecode d = none := hdrDecode_eq_none.2 (by omega)
    exact completesWithError_of_raise (exec_hdrDecode_of_none hin hdata hnone)
  · have hheader : payloadOffset (d.getD 1 0) ≤ s.inLen.toNat := hwhole
    have hsome : hdrDecode d = some (rawHeader d) := hdrDecode_of_whole (by omega) (by omega)
    refine ⟨_, exec_hdrDecode_of_some hin hdata hsome, ⟨rfl, rfl, keepsInputs_finishOk s _ _ _ _ _⟩,
      finishOk_outLen s _ _ _ _ _, fun a => ?_, headerWord_rawHeader d, keyWord_rawHeader d, ?_, poff_rawHeader d⟩
    · rw [finishDecoded, finishOk_outBuf, writeBytes_nil]
    · rw [finishDecoded, finishOk_rPlen]
      exact plen_rawHeader d

/-- Settles O31: the header with its key is not whole in exactly these cases, by the class of the marker. -/
theorem headerDecodeFailsOnlyWhenTruncated : Obligations.HeaderDecodeFailsOnlyWhenTruncated := by
  unfold Obligations.HeaderDecodeFailsOnlyWhenTruncated
  intro buf
  simp only [hdrDecode_eq_none, payloadOffset, byteHeaderLength, wireHeaderLength]
  split_ifs <;> omega

end Sys2Proof.Machine

/-! # Proofs: the Frame Builder (`42_frame_builder.md`)

Where the parts of a built frame stand, what BUILD answers in each of its cases, then the statement. -/

namespace Sys2Proof.Machine

/-! ## The parts of a built frame (R93 to R95) -/

/-- The index at which the payload of a frame begins: after the header, and after the key if there is one (R93). -/
def payloadStart (masked : Bool) (n : DWord) : Nat :=
  headerLength n + if masked then 4 else 0

theorem frameTotal_eq (masked : Bool) (n : DWord) : frameTotal masked n = payloadStart masked n + n.toNat := rfl

/-- The builder masks exactly when KEY_LEN.LEN = 4 (R92). -/
theorem payloadStart_keyLength (s : State) (n : DWord) :
    payloadStart (s.keyLength == 4) n = if s.keyLength = 4 then headerLength n + 4 else headerLength n := by
  simp only [payloadStart, beq_iff_eq]
  split_ifs <;> rfl

/-- Only a masked frame has bytes between its header and its payload, and they are four. -/
theorem masked_of_lt_payloadStart {masked : Bool} {n : DWord} {j : Nat}
    (h : headerLength n + j < payloadStart masked n) : masked = true ∧ j < 4 := by
  have hj := Nat.lt_of_add_lt_add_left h
  cases masked with
  | false => exact absurd hj (Nat.not_lt_zero j)
  | true => exact ⟨rfl, hj⟩

@[simp] theorem keyBytes_length (s : State) : s.keyBytes.length = 4 := be32_length _

theorem keyBytes_getElem? (s : State) {j : Nat} (hj : j < 4) :
    s.keyBytes[j]? = some (keyByteAt s.command.key j) := by
  interval_cases j <;> rfl

section

variable {flags : FrameFlags} {masked : Bool} {key payload : List Byte} {n : DWord}

theorem buildFrame_getElem?_header {i : Nat} (hi : i < headerLength n) :
    (buildFrame flags masked key payload n)[i]? = (hdrEncode flags masked n)[i]? := by
  rw [buildFrame_eq, List.getElem?_append_left (by rw [hdrEncode_length]; exact hi)]

/-- What follows the header. -/
theorem buildFrame_getElem?_afterHeader (i : Nat) :
    (buildFrame flags masked key payload n)[headerLength n + i]? =
      (if masked then key ++ maskf payload key else payload)[i]? := by
  rw [buildFrame_eq, ← hdrEncode_length flags masked n, List.getElem?_append_right (Nat.le_add_right _ i),
    Nat.add_sub_cancel_left]

theorem buildFrame_getElem?_key {j : Nat} (hj : headerLength n + j < payloadStart masked n) (hkey : key.length = 4) :
    (buildFrame flags masked key payload n)[headerLength n + j]? = key[j]? := by
  obtain ⟨rfl, hj4⟩ := masked_of_lt_payloadStart hj
  rw [buildFrame_getElem?_afterHeader, if_pos rfl, List.getElem?_append_left (by omega)]

theorem buildFrame_getElem?_payload (hkey : key.length = 4) (i : Nat) :
    (buildFrame flags masked key payload n)[payloadStart masked n + i]? =
      (if masked then maskf payload key else payload)[i]? := by
  rw [payloadStart, Nat.add_assoc, buildFrame_getElem?_afterHeader]
  cases masked with
  | false => exact congrArg (payload[·]?) (Nat.zero_add i)
  | true =>
    rw [if_pos rfl, if_pos rfl, if_pos rfl, ← hkey, List.getElem?_append_right (Nat.le_add_right _ i),
      Nat.add_sub_cancel_left]

end

/-! ## BUILD, case by case (R94) -/

section

variable {s : State}

theorem exec_build_of_inCap_lt (h : s.inCap < s.inLen.toNat) : exec .build s = .next (raise s .badCommand) :=
  if_pos h

theorem exec_build_of_keyLength_ne (hin : s.inLen.toNat ≤ s.inCap) (hkey0 : s.keyLength ≠ 0) (hkey4 : s.keyLength ≠ 4) :
    exec .build s = .next (raise s .invalidMaskKey) := by
  rw [exec, execBuild, if_neg (by omega), if_pos ⟨hkey0, hkey4⟩]

theorem exec_build_of_outCap_lt (hin : s.inLen.toNat ≤ s.inCap) (hkey : s.keyLength = 0 ∨ s.keyLength = 4)
    (hout : s.outCap < frameTotal (s.keyLength == 4) s.inLen) :
    exec .build s = .next (raise s .allocationFailure) := by
  rw [exec, execBuild, if_neg (by omega), if_neg (by omega), if_pos hout]

theorem exec_build_of_input {payload : List Byte} (hin : s.inLen.toNat ≤ s.inCap)
    (hkey : s.keyLength = 0 ∨ s.keyLength = 4) (hout : frameTotal (s.keyLength == 4) s.inLen ≤ s.outCap)
    (hpayload : s.inBuf.readBytes 0 s.inLen.toNat = some payload) :
    exec .build s = .next (finishOk s (buildFrame s.frameFlags (s.keyLength == 4) s.keyBytes payload s.inLen)) := by
  rw [exec, execBuild, if_neg (by omega), if_neg (by omega), if_neg (by omega), withInput_of_readBytes hpayload]

end

/-- The payload byte a frame holds for an input byte: masked with the key from index 0, or copied (R94, R95). -/
theorem buildFrame_getElem?_payloadByte (s : State) (payload : List Byte) (i : Nat) :
    (buildFrame s.frameFlags (s.keyLength == 4) s.keyBytes payload s.inLen)[
        payloadStart (s.keyLength == 4) s.inLen + i]? =
      payload[i]?.map fun b => if s.keyLength = 4 then b ^^^ keyByteAt s.command.key i else b := by
  rw [buildFrame_getElem?_payload (keyBytes_length s)]
  simp only [beq_iff_eq]
  split_ifs
  · exact maskf_keyBytes_getElem? payload s i
  · exact Option.map_id'.symm

/-! ## The statement -/

/-- Settles O15, from what BUILD answers in each of its four cases and the parts of the frame it writes. -/
theorem buildComposesTheFrame : Obligations.BuildComposesTheFrame := by
  unfold Obligations.BuildComposesTheFrame
  intro s hcaps
  simp only [← headerLength_eq, ← lengthMarker_toNat, ← payloadStart_keyLength, ← frameTotal_eq]
  refine ⟨fun hin => completesWithError_of_raise (exec_build_of_inCap_lt hin),
    fun hin hkey0 hkey4 => completesWithError_of_raise (exec_build_of_keyLength_ne hin hkey0 hkey4),
    fun hin hkey hout => completesWithError_of_raise (exec_build_of_outCap_lt hin hkey hout),
    fun hin hkey hout hwritten => ?_⟩
  obtain ⟨payload, hpayload, hlength, hbytes⟩ := readBytes_zero_of_written hwritten
  have htotal : (buildFrame s.frameFlags (s.keyLength == 4) s.keyBytes payload s.inLen).length =
      frameTotal (s.keyLength == 4) s.inLen := buildFrame_length _ _ _ _ _ (keyBytes_length s) hlength
  have hread : ∀ a < frameTotal (s.keyLength == 4) s.inLen,
      (finishOk s (buildFrame s.frameFlags (s.keyLength == 4) s.keyBytes payload s.inLen)).outBuf.read a =
        (buildFrame s.frameFlags (s.keyLength == 4) s.keyBytes payload s.inLen)[a]? := fun a ha => by
    rw [finishOk_outBuf, read_writeBytes_inside _ _ (htotal ▸ ha)]
  have hsum := frameTotal_eq (s.keyLength == 4) s.inLen
  have hstart : headerLength s.inLen ≤ payloadStart (s.keyLength == 4) s.inLen := Nat.le_add_right _ _
  have hmin := (headerLength_bounds s.inLen).1
  refine ⟨_, exec_build_of_input hin hkey hout hpayload, completedOkPlain_finishOk s _, ?_, ?_, ?_, fun j hj => ?_,
    fun j hj => ?_, fun i hi => ?_, fun a ha => ?_⟩
  · rw [finishOk_outLen_toNat hcaps (htotal.le.trans hout), htotal]
  · rw [hread _ (by omega), buildFrame_getElem?_header (by omega), hdrEncode_getElem?_zero]
  · rw [hread _ (by omega), buildFrame_getElem?_header (by omega), hdrEncode_getElem?_one]
    simp only [beq_iff_eq]
  · rw [hread _ (by omega), buildFrame_getElem?_header (by omega), hdrEncode_getElem?_ext _ _ _ hj]
  · rw [hread _ (by omega), buildFrame_getElem?_key hj (keyBytes_length s),
      keyBytes_getElem? s (masked_of_lt_payloadStart hj).2]
  · rw [hread _ (by omega), buildFrame_getElem?_payloadByte, hbytes i hi]
  · rw [finishOk_outBuf, read_writeBytes_outside _ _ (htotal ▸ ha)]

end Sys2Proof.Machine

/-! # Proofs: the Frame Parser (`43_frame_parser.md`)

The payload byte by byte, what PARSE answers in each of its cases, what the parser finds in a frame that the builder made,
then the statements. -/

namespace Sys2Proof.Machine

/-! ## The payload of a parsed frame (R101) -/

theorem slice_to_end (l : List Byte) (a : Nat) : slice l a l.length = l.drop a := by
  rw [slice, List.take_length]

theorem parsedPayload_getElem? (autoUnmask : Bool) (h : Header) (data : List Byte) (i : Nat) :
    (parsedPayload autoUnmask h data)[i]? = data[h.poff + i]?.map fun b =>
      if h.masked = true ∧ autoUnmask = true then b ^^^ h.key.getD (i % 4) 0 else b := by
  simp only [parsedPayload, slice_to_end, Bool.and_eq_true]
  split_ifs
  · rw [maskf_getElem?, List.getElem?_drop]
  · rw [List.getElem?_drop]
    exact Option.map_id'.symm

/-! ## The result registers (R34 to R37, R102) -/

theorem keyWord_toNat {key : List Byte} (h : key.length = 4) : (keyWord key).toNat = beval key :=
  toNat_ofNat_of_lt (beval_lt_of_length_le (n := 4) h.le)

theorem poff_le_of_hdrDecode {buf : List Byte} {h : Header} (hd : hdrDecode buf = some h) : h.poff ≤ 14 := by
  obtain ⟨-, -, rfl⟩ := hdrDecode_eq_some hd
  exact payloadOffset_le _

theorem headerWord_of_hdrDecode {buf : List Byte} {h : Header} (hd : hdrDecode buf = some h) :
    (headerWord h.flags h.masked h.marker).toNat = (buf.getD 1 0).toNat * 256 + (buf.getD 0 0).toNat := by
  obtain ⟨-, -, rfl⟩ := hdrDecode_eq_some hd
  exact headerWord_rawHeader buf

/-- The low bits of a bit field are a narrower field from the same bit. -/
theorem extract_front_of_extract {n : Nat} (v : BitVec n) (k : Nat) {a b : Nat} (h : b ≤ a) :
    (v.extractLsb' k a).extractLsb' 0 b = v.extractLsb' k b := by
  ext i hi
  simp [hi.trans_le h]

theorem headerWord_byte0 (flags : FrameFlags) (masked : Bool) (marker : BitVec 7) :
    (headerWord flags masked marker).extractLsb' 0 8 = flags.byte0 :=
  extract_append_low _ _

theorem headerWord_byte1 (flags : FrameFlags) (masked : Bool) (marker : BitVec 7) :
    (headerWord flags masked marker).extractLsb' 8 8 = frameByte1 masked marker :=
  (extract_append_high _ _ 0).trans (extract_append_low _ _)

theorem headerWord_masked (flags : FrameFlags) (masked : Bool) (marker : BitVec 7) :
    (headerWord flags masked marker).getLsbD 15 = masked := by
  calc (headerWord flags masked marker).getLsbD 15
      = ((headerWord flags masked marker).extractLsb' 8 8).getLsbD 7 := (BitVec.getLsbD_extractLsb' 8 8 _ 7).symm
    _ = masked := by rw [headerWord_byte1, frameByte1_masked]

theorem headerWord_marker (flags : FrameFlags) (masked : Bool) (marker : BitVec 7) :
    (headerWord flags masked marker).extractLsb' 8 7 = marker := by
  calc (headerWord flags masked marker).extractLsb' 8 7
      = ((headerWord flags masked marker).extractLsb' 8 8).extractLsb' 0 7 :=
        (extract_front_of_extract _ 8 (by decide)).symm
    _ = marker := by rw [headerWord_byte1, frameByte1_marker]

/-! ## PARSE, case by case (R102) -/

section

variable {s : State} {autoUnmask : Bool} {data : List Byte} {h : Header}

theorem exec_parse_of_inCap_lt (hin : s.inCap < s.inLen.toNat) :
    exec (.parse autoUnmask) s = .next (raise s .badCommand) :=
  if_pos hin

/-- An input within IN_CAP that is written: PARSE completes as `parseInput` says. -/
theorem exec_parse_of_input {t : State} (hin : s.inLen.toNat ≤ s.inCap)
    (hdata : s.inBuf.readBytes 0 s.inLen.toNat = some data) (ht : parseInput s autoUnmask data = t) :
    exec (.parse autoUnmask) s = .next t := by
  rw [exec, execParse, if_neg (by omega), withInput_of_readBytes hdata, ht]

theorem parseInput_of_none (hd : hdrDecode data = none) : parseInput s autoUnmask data = raise s .truncatedFrame := by
  rw [parseInput, hd]

theorem parseInput_of_sum_ne (hd : hdrDecode data = some h) (hsum : h.poff + h.plen.toNat ≠ data.length) :
    parseInput s autoUnmask data = raise s .lengthMismatch := by
  simp only [parseInput, hd, if_pos hsum]

theorem parseInput_of_outCap_lt (hd : hdrDecode data = some h) (hsum : h.poff + h.plen.toNat = data.length)
    (hout : s.outCap < h.plen.toNat) : parseInput s autoUnmask data = raise s .allocationFailure := by
  simp only [parseInput, hd, if_neg (not_not.2 hsum), if_pos hout]

theorem parseInput_of_fits (hd : hdrDecode data = some h) (hsum : h.poff + h.plen.toNat = data.length)
    (hout : h.plen.toNat ≤ s.outCap) :
    parseInput s autoUnmask data = finishDecoded s (parsedPayload autoUnmask h data) h := by
  simp only [parseInput, hd, if_neg (not_not.2 hsum), if_neg (not_lt.2 hout)]

end

/-! ## A built frame, parsed (R104) -/

/-- The header that the builder writes, as the decoder reports it: no key is `zeros(4)` (R88). -/
def builtHeader (flags : FrameFlags) (masked : Bool) (key : Word) (n : DWord) : Header :=
  { flags, masked, marker := lengthMarker n, plen := n, key := be32 (if masked then key else 0),
    poff := payloadStart masked n }

section

variable (flags : FrameFlags) (masked : Bool) (key : Word) (payload : List Byte) (n : DWord)

theorem hdrDecode_buildFrame :
    hdrDecode (buildFrame flags masked (be32 key) payload n) = some (builtHeader flags masked key n) := by
  rw [buildFrame_eq]
  cases masked with
  | false =>
    have hdecode := hdrDecode_hdrEncode flags n none payload
    rwa [keyField, List.append_nil] at hdecode
  | true =>
    rw [if_pos rfl, ← List.append_assoc]
    exact hdrDecode_hdrEncode flags n (some key) (maskf payload (be32 key))

theorem buildFrame_drop_payloadStart :
    (buildFrame flags masked (be32 key) payload n).drop (payloadStart masked n) =
      if masked then maskf payload (be32 key) else payload := by
  refine List.ext_getElem? fun i => ?_
  rw [List.getElem?_drop, buildFrame_getElem?_payload (be32_length key)]

/-- Masking twice with the frame's key gives the payload back. -/
theorem parsedPayload_buildFrame :
    parsedPayload true (builtHeader flags masked key n) (buildFrame flags masked (be32 key) payload n) = payload := by
  simp only [parsedPayload, builtHeader, slice_to_end, buildFrame_drop_payloadStart]
  cases masked with
  | false => rfl
  | true => exact maskf_maskf payload (be32 key)

end

/-- What BUILD answers when it completes OK. -/
theorem exec_build_ok {s t : State} (h : exec .build s = .next t) (hok : t.code = .ok) :
    frameTotal (s.keyLength == 4) s.inLen ≤ s.outCap ∧ ∃ payload, s.inBuf.readBytes 0 s.inLen.toNat = some payload ∧
      t = finishOk s (buildFrame s.frameFlags (s.keyLength == 4) s.keyBytes payload s.inLen) := by
  rcases execBuild_next h with ⟨-, rfl⟩ | ⟨-, -, -, rfl⟩ | ⟨-, -, -, rfl⟩ | ⟨-, -, hroom, hpayload⟩
  · cases hok
  · cases hok
  · cases hok
  · exact ⟨hroom, hpayload⟩

/-- The bytes of a buffer that holds the output of an OK completion. -/
theorem readBytes_of_finishOk_output {s : State} {m : Memory} {out : List Byte}
    (h : ∀ a < out.length, m.read a = (finishOk s out).outBuf.read a) : m.readBytes 0 out.length = some out := by
  refine readBytes_eq_some.2 ⟨rfl, fun i hi => ?_⟩
  rw [Nat.zero_add, h i hi, finishOk_outBuf, read_writeBytes_inside _ _ hi]

/-! ## The statements -/

/-- Settles O35: the decoder reports the builder's own header, whose length sum is that of the whole frame. -/
theorem parseInvertsBuild : Obligations.ParseInvertsBuild := by
  unfold Obligations.ParseInvertsBuild
  intro s t u hcaps hbuild hok hinLen hin hout hcopied
  obtain ⟨hroom, payload, hpayload, rfl⟩ := exec_build_ok hbuild hok
  obtain ⟨hlength, hbytes⟩ := readBytes_eq_some.1 hpayload
  have htotal : (buildFrame s.frameFlags (s.keyLength == 4) s.keyBytes payload s.inLen).length =
      frameTotal (s.keyLength == 4) s.inLen := buildFrame_length _ _ _ _ _ (keyBytes_length s) hlength
  rw [← hinLen] at hin
  have hinput : u.inLen.toNat = (buildFrame s.frameFlags (s.keyLength == 4) s.keyBytes payload s.inLen).length := by
    rw [hinLen, finishOk_outLen_toNat hcaps (htotal.le.trans hroom)]
  rw [← hinLen, hinput] at hcopied
  have hframe := hinput ▸ readBytes_of_finishOk_output hcopied
  have hparsed := parseInput_of_fits (autoUnmask := true) (hdrDecode_buildFrame _ _ _ payload _) htotal.symm hout
  rw [parsedPayload_buildFrame] at hparsed
  refine ⟨_, exec_parse_of_input hin hframe hparsed, rfl, ?_, headerWord_masked _ _ _,
    headerWord_marker _ _ _, ?_, ?_, ?_, fun a ha => ?_⟩
  · exact (headerWord_byte0 _ _ _).trans (byte0_frameFlags s)
  · refine (keyWord_be32 _).trans ?_
    simp only [beq_iff_eq]
  · exact finishOk_rPlen _ _ _ _ _ _
  · rw [finishDecoded, finishOk_outLen, hlength, BitVec.ofNat_toNat, BitVec.setWidth_eq]
  · rw [finishDecoded, finishOk_outBuf, read_writeBytes_inside _ _ (hlength ▸ ha), ← hbytes a ha, Nat.zero_add]

/-- Settles O16, from what PARSE answers in each of its five cases and the payload byte by byte. -/
theorem parseValidatesAndExtracts : Obligations.ParseValidatesAndExtracts := by
  unfold Obligations.ParseValidatesAndExtracts
  refine fun s autoUnmask => ⟨fun hin => completesWithError_of_raise (exec_parse_of_inCap_lt hin), fun d hin hdata => ?_⟩
  obtain ⟨hlength, hbytes⟩ := readBytes_eq_some.1 hdata
  rw [← hlength]
  have herror {c : StatusCode} (hc : parseInput s autoUnmask d = raise s c) :
      CompletesWithError (.parse autoUnmask) s c := completesWithError_of_raise (exec_parse_of_input hin hdata hc)
  refine ⟨fun hd => herror (parseInput_of_none hd), fun h hd => ⟨fun hsum => herror (parseInput_of_sum_ne hd hsum),
    fun hsum hout => herror (parseInput_of_outCap_lt hd hsum hout), fun hsum hout => ?_⟩⟩
  have hpayload : (parsedPayload autoUnmask h d).length = h.plen.toNat := by rw [parsedPayload_length]; omega
  have hpoff := poff_le_of_hdrDecode hd
  obtain ⟨-, -, hkey⟩ := hdrDecode_shape hd
  refine ⟨_, exec_parse_of_input hin hdata (parseInput_of_fits hd hsum hout),
    ⟨rfl, rfl, keepsInputs_finishOk s _ _ _ _ _⟩, ?_, fun i hi => ?_, fun a ha => ?_, headerWord_of_hdrDecode hd,
    keyWord_toNat hkey, finishOk_rPlen s _ _ _ _ _, toNat_ofNat_of_lt (by omega)⟩
  · rw [finishDecoded, finishOk_outLen, hpayload, BitVec.ofNat_toNat, BitVec.setWidth_eq]
  · rw [finishDecoded, finishOk_outBuf, read_writeBytes_inside _ _ (hpayload ▸ hi), parsedPayload_getElem?,
      ← hbytes (h.poff + i) (by omega), Nat.zero_add]
  · rw [finishDecoded, finishOk_outBuf, read_writeBytes_outside _ _ (hpayload ▸ ha)]

/-- Settles O34: a sum that wraps is less than `poff`, and the input is at least that long. -/
theorem lengthSumNeedsNoWrap : Obligations.LengthSumNeedsNoWrap := by
  unfold Obligations.LengthSumNeedsNoWrap
  intro buf h hshort hd
  have hpoff := poff_le_of_hdrDecode hd
  have hplen := h.plen.isLt
  obtain ⟨-, hwhole, -⟩ := hdrDecode_shape hd
  refine ⟨by omega, ?_⟩
  rw [BitVec.toNat_add, toNat_ofNat_of_lt (show h.poff < 2 ^ 64 by omega)]
  omega

end Sys2Proof.Machine

/-! # Proofs: the errors (`60_exceptions.md`)

What an error completion records, the table of R114 as the checks that concern one command, then the statements. -/

namespace Sys2Proof.Machine

/-! ## What an error records (R111, R113) -/

/-- A completion with a code other than OK is the error write-back of that code. -/
theorem exec_error_eq_raise {i : Instr} {s t : State} (h : exec i s = .next t) (hcode : t.code ≠ .ok) :
    t = raise s t.code := by
  rcases exec_next_shape h with ⟨c, -, rfl⟩ | ⟨out, rHdr, rKey, rPlen, rPoff, rfl⟩
  · rfl
  · exact absurd rfl hcode

theorem raise_register_result (s : State) (c : StatusCode) :
    ∀ r ∈ [Reg.outLenLo, .outLenHi, .rHdr, .rKey, .rPlenLo, .rPlenHi, .rPoff], (raise s c).register r = 0 := by
  simp [State.register, ResultRegs.zero]

/-! ## The first of several checks (R114) -/

/-- A check of the table: its code, and when it applies. -/
abbrev ErrorCheck := StatusCode × (Instr → State → List Byte → Bool)

/-- The code of the first check in a list that applies, OK if none does. -/
def firstCode (i : Instr) (s : State) (d : List Byte) : List ErrorCheck → StatusCode
  | [] => .ok
  | c :: checks => if c.2 i s d then c.1 else firstCode i s d checks

section

variable (i : Instr) (s : State) (d : List Byte)

theorem firstCode_eq_find? (checks : List ErrorCheck) :
    firstCode i s d checks = ((checks.find? fun c => c.2 i s d).map Prod.fst).getD .ok := by
  induction checks with
  | nil => rfl
  | cons c checks ih =>
    rw [firstCode, ih, List.find?_cons]
    cases c.2 i s d <;> rfl

theorem firstError_eq_firstCode : firstError i s d = firstCode i s d errorChecks := by
  rw [firstCode_eq_find?, firstError]
  cases errorChecks.find? fun c => c.2 i s d <;> rfl

/-! ## The table's checks, command by command -/

theorem firstError_reserved (h : isReserved i = true) : firstError i s d = .badCommand := by
  simp [firstError_eq_firstCode, errorChecks, firstCode, h]

theorem firstError_mask :
    firstError .mask s d =
      if s.inCap < s.inLen.toNat then .badCommand
      else if s.keyLength ≠ 4 then .invalidMaskKey
      else if s.outCap < s.inLen.toNat then .allocationFailure
      else .ok := by
  simp [firstError_eq_firstCode, errorChecks, firstCode, isReserved, readsInput, isDecoder, isParse, outputSize]

theorem firstError_hdrEncode : firstError .hdrEncode s d = .ok := by
  simp [firstError_eq_firstCode, errorChecks, firstCode, isReserved, readsInput, isDecoder, isParse, outputSize]

theorem outputSize_build : outputSize .build s d = frameTotal (s.keyLength == 4) s.inLen := by
  simp [outputSize, frameTotal, headerLength_eq]

theorem firstError_build :
    firstError .build s d =
      if s.inCap < s.inLen.toNat then .badCommand
      else if s.keyLength ≠ 0 ∧ s.keyLength ≠ 4 then .invalidMaskKey
      else if s.outCap < frameTotal (s.keyLength == 4) s.inLen then .allocationFailure
      else .ok := by
  simp [firstError_eq_firstCode, errorChecks, firstCode, isReserved, readsInput, isDecoder, isParse, outputSize_build]

/-- The three truncation checks are one check on the header with its key, beside that on its first two bytes (R87). -/
theorem truncationChecks_eq (n hl k : Nat) (code later : StatusCode) :
    (if n < 2 then code else if n < hl then code else if n < hl + k then code else later) =
      if n < 2 ∨ n < hl + k then code else later := by
  by_cases hshort : n < 2
  · rw [if_pos hshort, if_pos (.inl hshort)]
  · by_cases hheader : n < hl
    · rw [if_neg hshort, if_pos hheader, if_pos (.inr (by omega))]
    · simp only [hshort, hheader, if_false, false_or]

theorem payloadOffset_eq (byte1 : Byte) :
    payloadOffset byte1 = wireHeaderLength (byte1.toNat % 128) + if 128 ≤ byte1.toNat then 4 else 0 := by
  unfold payloadOffset byteHeaderLength
  split <;> rfl

theorem firstError_hdrDecode :
    firstError .hdrDecode s d =
      if s.inCap < s.inLen.toNat then .badCommand
      else if s.inLen.toNat < 2 ∨ s.inLen.toNat < payloadOffset (d.getD 1 0) then .truncatedFrame
      else .ok := by
  rw [payloadOffset_eq, ← truncationChecks_eq]
  simp [firstError_eq_firstCode, errorChecks, firstCode, isReserved, readsInput, isDecoder, isParse, outputSize]

theorem isParse_parse (autoUnmask : Bool) : isParse (.parse autoUnmask) = true := by cases autoUnmask <;> rfl

theorem outputSize_parse (autoUnmask : Bool) : outputSize (.parse autoUnmask) s d = wireLength d := by
  simp [outputSize, isParse_parse, wireLength, byteHeaderLength]

theorem firstError_parse (autoUnmask : Bool) :
    firstError (.parse autoUnmask) s d =
      if s.inCap < s.inLen.toNat then .badCommand
      else if s.inLen.toNat < 2 ∨ s.inLen.toNat < payloadOffset (d.getD 1 0) then .truncatedFrame
      else if payloadOffset (d.getD 1 0) + wireLength d ≠ s.inLen.toNat then .lengthMismatch
      else if s.outCap < wireLength d then .allocationFailure
      else .ok := by
  rw [payloadOffset_eq, ← truncationChecks_eq]
  simp [firstError_eq_firstCode, errorChecks, firstCode, isReserved, readsInput, isDecoder, isParse_parse,
    outputSize_parse]

end

/-! ## The input that a command reads -/

/-- The first bytes of bytes that are written. -/
theorem readBytes_take {m : Memory} {a k n : Nat} {d : List Byte} (h : m.readBytes a n = some d) (hk : k ≤ n) :
    m.readBytes a k = some (d.take k) := by
  obtain ⟨hlength, hbytes⟩ := readBytes_eq_some.1 h
  refine readBytes_eq_some.2 ⟨by rw [List.length_take]; omega, fun i hi => ?_⟩
  rw [hbytes i (by omega), List.getElem?_take_of_lt hi]

/-- Whether a header is truncated shows in the 14 bytes that HDR_DECODE reads (R44). -/
theorem hdrDecode_take_eq_none {d : List Byte} {k : Nat} (hk : min d.length 14 ≤ k) :
    hdrDecode (d.take k) = none ↔ d.length < 2 ∨ d.length < payloadOffset (d.getD 1 0) := by
  have hoffset := payloadOffset_le (d.getD 1 0)
  rw [hdrDecode_eq_none, List.length_take]
  by_cases hlong : d.length < 2
  · omega
  · have hbyte1 : (d.take k).getD 1 0 = d.getD 1 0 := by
      rw [List.getD_eq_getElem?_getD, List.getD_eq_getElem?_getD, List.getElem?_take_of_lt (by omega)]
    rw [hbyte1]
    omega

/-! ## What each command reports -/

section

variable {s : State} {d : List Byte} (hd : s.inBuf.readBytes 0 (min s.inLen.toNat s.inCap) = some d)
include hd

/-- The input bytes when IN_LEN is within IN_CAP. -/
theorem input_of_inLen_le (hin : s.inLen.toNat ≤ s.inCap) :
    s.inBuf.readBytes 0 s.inLen.toNat = some d ∧ d.length = s.inLen.toNat := by
  rw [min_eq_left hin] at hd
  exact ⟨hd, (readBytes_eq_some.1 hd).1⟩

theorem exec_mask_reports_firstError : ∃ t, exec .mask s = .next t ∧ t.code = firstError .mask s d := by
  rw [firstError_mask]
  split_ifs with hin hkey hout
  · exact ⟨_, exec_mask_of_inCap_lt hin, rfl⟩
  · exact ⟨_, exec_mask_of_keyLength_ne (not_lt.1 hin) hkey, rfl⟩
  · exact ⟨_, exec_mask_of_outCap_lt (not_lt.1 hin) (not_not.1 hkey) hout, rfl⟩
  · obtain ⟨hinput, -⟩ := input_of_inLen_le hd (not_lt.1 hin)
    exact ⟨_, exec_mask_of_input (not_lt.1 hin) (not_not.1 hkey) (not_lt.1 hout) hinput, rfl⟩

theorem exec_hdrDecode_reports_firstError :
    ∃ t, exec .hdrDecode s = .next t ∧ t.code = firstError .hdrDecode s d := by
  rw [firstError_hdrDecode]
  by_cases hin : s.inCap < s.inLen.toNat
  · rw [if_pos hin]
    exact ⟨_, exec_hdrDecode_of_inCap_lt hin, rfl⟩
  · obtain ⟨hinput, hlength⟩ := input_of_inLen_le hd (not_lt.1 hin)
    have hfirst := readBytes_take hinput (min_le_left _ 14)
    have hnone := hdrDecode_take_eq_none (d := d) (k := min s.inLen.toNat 14) (by rw [hlength])
    rw [if_neg hin, ← hlength]
    split_ifs with hshort
    · exact ⟨_, exec_hdrDecode_of_none (not_lt.1 hin) hfirst (hnone.2 hshort), rfl⟩
    · obtain ⟨h, hheader⟩ := Option.ne_none_iff_exists'.1 (mt hnone.1 hshort)
      exact ⟨_, exec_hdrDecode_of_some (not_lt.1 hin) hfirst hheader, rfl⟩

theorem exec_build_reports_firstError : ∃ t, exec .build s = .next t ∧ t.code = firstError .build s d := by
  rw [firstError_build]
  split_ifs with hin hkey hout
  · exact ⟨_, exec_build_of_inCap_lt hin, rfl⟩
  · exact ⟨_, exec_build_of_keyLength_ne (not_lt.1 hin) hkey.1 hkey.2, rfl⟩
  · exact ⟨_, exec_build_of_outCap_lt (not_lt.1 hin) (by omega) hout, rfl⟩
  · obtain ⟨hinput, -⟩ := input_of_inLen_le hd (not_lt.1 hin)
    exact ⟨_, exec_build_of_input (not_lt.1 hin) (by omega) (not_lt.1 hout) hinput, rfl⟩

theorem exec_parse_reports_firstError (autoUnmask : Bool) :
    ∃ t, exec (.parse autoUnmask) s = .next t ∧ t.code = firstError (.parse autoUnmask) s d := by
  rw [firstError_parse]
  by_cases hin : s.inCap < s.inLen.toNat
  · rw [if_pos hin]
    exact ⟨_, exec_parse_of_inCap_lt hin, rfl⟩
  · obtain ⟨hinput, hlength⟩ := input_of_inLen_le hd (not_lt.1 hin)
    refine ⟨_, exec_parse_of_input (not_lt.1 hin) hinput rfl, ?_⟩
    rw [if_neg hin, ← hlength, ← plen_rawHeader]
    by_cases hshort : d.length < 2 ∨ d.length < payloadOffset (d.getD 1 0)
    · rw [if_pos hshort, parseInput_of_none (hdrDecode_eq_none.2 hshort), raise_code]
    · have hheader : hdrDecode d = some (rawHeader d) := hdrDecode_of_whole (by omega) (by omega)
      rw [if_neg hshort]
      split_ifs with hsum hout
      · rw [parseInput_of_sum_ne hheader hsum, raise_code]
      · rw [parseInput_of_outCap_lt hheader (not_not.1 hsum) hout, raise_code]
      · rw [parseInput_of_fits hheader (not_not.1 hsum) (not_lt.1 hout), finishDecoded, finishOk_code]

end

/-! ## The statements -/

/-- Settles O21: an error completion is the error write-back of its code. -/
theorem errorRecordsOnlyItsCode : Obligations.ErrorRecordsOnlyItsCode := by
  unfold Obligations.ErrorRecordsOnlyItsCode
  intro i s t ht hcode
  rw [exec_error_eq_raise ht hcode]
  exact ⟨raise_register_result s t.code, rfl⟩

/-- Settles O24: each command's own checks are the table's checks that concern it, in the table's order. -/
theorem firstErrorInTheTableIsReported : Obligations.FirstErrorInTheTableIsReported := by
  unfold Obligations.FirstErrorInTheTableIsReported
  intro s i w d hcommand hd
  cases i with
  | mask => exact exec_mask_reports_firstError hd
  | hdrEncode => exact ⟨_, rfl, (firstError_hdrEncode s d).symm⟩
  | hdrDecode => exact exec_hdrDecode_reports_firstError hd
  | build => exact exec_build_reports_firstError hd
  | parse autoUnmask => exact exec_parse_reports_firstError hd autoUnmask
  | reservedOp0 | reservedOp6 | reservedOp7 => exact ⟨_, rfl, (firstError_reserved _ s d rfl).symm⟩
  | frameLen7 | frameLen16 | frameLen64 => cases hcommand

end Sys2Proof.Machine

/-! # Proofs: reset and hazards (`70_reset_and_hazards.md`)

The host hazards of R130: what a host write meets while a command is in flight. -/

namespace Sys2Proof.Machine

/-! ## Host writes during BUSY (R130) -/

theorem writeRegister_command_of_busy {r : Reg} (hr : r.isCommand = true) {s : State} (hb : s.busy = true) (v : Word) :
    writeRegister r v s = .refused .writeWhileBusy := by
  rw [writeRegister_command hr, if_pos hb]

theorem hostWriteByte_of_busy {s : State} (hb : s.busy = true) {buffer : Buffer} {index : Nat}
    (hi : index < s.capacity buffer) (v : Byte) : hostWriteByte buffer 8 index v s = .refused .writeWhileBusy := by
  rw [hostWriteByte, if_pos (bufferAccessAdmitted_iff.2 ⟨rfl, hi⟩), if_pos hb]

/-- The registers below START are the command registers (R23). -/
theorem isCommand_of_mem : ∀ r ∈ [Reg.cmd, .flags, .key, .keyLen, .plenLo, .plenHi, .inLenLo, .inLenHi],
    r.isCommand = true := by decide

/-! ## The statement -/

/-- Settles O44: each admitted write that is not ignored meets the BUSY check before it acts, and taking the host's turn
leaves BUSY as it is; the START clause is that of O39, the ignored writes are those of O38. -/
theorem hostWritesDuringBusyAreRefused : Obligations.HostWritesDuringBusyAreRefused := by
  unfold Obligations.HostWritesDuringBusyAreRefused
  intro s rest hb
  have hbusy : (s.afterHostTurn rest).busy = true := hb
  refine ⟨fun r hr v hn => ?_, fun v hgo hn => ?_, fun buffer a b ha hn => ?_, fun offset v ha hl ho hn => ?_⟩
  · rw [step_of_hostNext hn, hostPerform, hostWriteReg_offset]
    exact writeRegister_command_of_busy (isCommand_of_mem r hr) hbusy v
  · obtain ⟨-, -, hrefused, -⟩ := startBeginsTheSelectedCommand s v rest hn
    exact hrefused hgo hb
  · rw [step_of_hostNext hn, hostPerform]
    exact hostWriteByte_of_busy hbusy (by simpa using ha) b
  · obtain ⟨-, -, -, hignored⟩ := reservedAndReadOnlyIgnoreWrites
    obtain ⟨t, hstep, hsame, -⟩ := hignored s offset v rest ha hl ho hn
    exact ⟨t, hstep, hsame⟩

end Sys2Proof.Machine

/-! # Proofs: what every step keeps (`10_state.md` §3, `20_memory.md` §1)

What a completion reports, the invariant through each operation of the two agents, then the statements. -/

namespace Sys2Proof.Machine

/-! ## What a completion reports (R34 to R37) -/

/-- The completion gives no decode result: R_HDR, R_KEY, R_PLEN and R_POFF are 0. -/
structure NoDecodeResult (t : State) : Prop where
  rHdr  : t.result.rHdr = 0
  rKey  : t.result.rKey = 0
  rPlen : t.rPlen = 0
  rPoff : t.result.rPoff = 0

/-- The completion reports a header: R_HDR is its first two bytes, R_POFF one of the offsets of R37. -/
structure HeaderResult (t : State) : Prop where
  rHdr  : ∃ flags masked marker, t.result.rHdr = headerWord flags masked marker
  rPoff : t.result.rPoff.toNat ∈ [2, 4, 6, 8, 10, 14]

theorem noDecodeResult_raise (s : State) (c : StatusCode) : NoDecodeResult (raise s c) :=
  ⟨rfl, rfl, raise_rPlen s c, rfl⟩

theorem noDecodeResult_finishOk (s : State) (out : List Byte) : NoDecodeResult (finishOk s out) :=
  ⟨rfl, rfl, finishOk_rPlen s out 0 0 0 0, rfl⟩

theorem headerResult_finishDecoded {s : State} {out buf : List Byte} {h : Header} (hd : hdrDecode buf = some h) :
    HeaderResult (finishDecoded s out h) := by
  refine ⟨⟨h.flags, h.masked, h.marker, rfl⟩, ?_⟩
  have hle := poff_le_of_hdrDecode hd
  show (BitVec.ofNat 32 h.poff).toNat ∈ _
  rw [toNat_ofNat_of_lt (by omega)]
  exact (hdrDecode_shape hd).1

theorem headerResult_finishFrame (s : State) (flags : FrameFlags) (marker : BitVec 7) (key : Option Word) (p : DWord)
    {hl : Nat} (hhl : hl ∈ [2, 4, 10]) : HeaderResult (finishFrame s flags marker key p hl) := by
  refine ⟨⟨flags, key.isSome, marker, rfl⟩, ?_⟩
  show (BitVec.ofNat 32 (if key.isSome then hl + 4 else hl)).toNat ∈ _
  simp only [List.mem_cons, List.not_mem_nil, or_false] at hhl
  cases key.isSome <;> obtain rfl | rfl | rfl := hhl <;> decide

/-- The instructions that give no decode result, whatever their code. -/
abbrev plainCommands : List Instr := [.mask, .hdrEncode, .build, .reservedOp0, .reservedOp6, .reservedOp7]

theorem not_isDecoder_of_plain : ∀ i ∈ plainCommands, ¬ isDecoder i = true := by decide

/-- A completion reports a header exactly when it is the OK completion of an instruction that decodes one. -/
theorem exec_decodeResult {i : Instr} {s t : State} (h : exec i s = .next t) :
    ((i ∈ plainCommands ∨ t.code ≠ .ok) ∧ NoDecodeResult t) ∨ (i ∉ plainCommands ∧ t.code = .ok ∧ HeaderResult t) := by
  by_cases hcode : t.code = .ok
  case neg =>
    rw [exec_error_eq_raise h hcode] at hcode ⊢
    exact .inl ⟨.inr hcode, noDecodeResult_raise s _⟩
  case pos =>
    cases i with
    | mask =>
      rcases execMask_next h with ⟨-, rfl⟩ | ⟨-, -, rfl⟩ | ⟨-, -, -, rfl⟩ | ⟨-, -, -, data, -, rfl⟩
      case inr.inr.inr => exact .inl ⟨.inl (by decide), noDecodeResult_finishOk s _⟩
      all_goals cases hcode
    | hdrEncode =>
      cases h
      exact .inl ⟨.inl (by decide), noDecodeResult_finishOk s _⟩
    | hdrDecode =>
      rcases execHdrDecode_next h with ⟨-, rfl⟩ | ⟨-, data, -, ⟨-, rfl⟩ | ⟨hdr, hd, rfl⟩⟩
      · cases hcode
      · cases hcode
      · exact .inr ⟨by decide, rfl, headerResult_finishDecoded hd⟩
    | build =>
      obtain ⟨-, payload, -, rfl⟩ := exec_build_ok h hcode
      exact .inl ⟨.inl (by decide), noDecodeResult_finishOk s _⟩
    | parse autoUnmask =>
      rcases execParse_next h with
        ⟨-, rfl⟩ | ⟨-, data, -, ⟨-, rfl⟩ | ⟨hdr, hd, ⟨-, rfl⟩ | ⟨-, -, rfl⟩ | ⟨-, -, rfl⟩⟩⟩
      case inr.inr.inr.inr => exact .inr ⟨by simp, rfl, headerResult_finishDecoded hd⟩
      all_goals cases hcode
    | reservedOp0 | reservedOp6 | reservedOp7 =>
      cases h
      cases hcode
    | frameLen7 flags marker key | frameLen16 flags length key | frameLen64 flags length key =>
      cases h
      exact .inr ⟨by simp, rfl, headerResult_finishFrame _ _ _ _ _ (by decide)⟩

/-- Bits 31:16 of R_HDR are reserved, and a header word has none of them (R34). -/
theorem headerWord_lt (flags : FrameFlags) (masked : Bool) (marker : BitVec 7) :
    (headerWord flags masked marker).toNat < 65536 := by
  rw [headerWord_toNat]
  omega

theorem headerWord_reserved (flags : FrameFlags) (masked : Bool) (marker : BitVec 7) :
    headerWord flags masked marker &&& ~~~Reg.rHdr.namedBits = 0 := by
  have hnamed : headerWord flags masked marker &&& Reg.rHdr.namedBits = headerWord flags masked marker :=
    BitVec.eq_of_toNat_eq (Nat.and_two_pow_sub_one_of_lt_two_pow (n := 16) (headerWord_lt flags masked marker))
  rw [← hnamed]
  exact and_and_not_self _ _

/-! ## The invariant through a completion -/

theorem exec_keepsInputs {i : Instr} {s t : State} (h : exec i s = .next t) : KeepsInputs s t := by
  rcases exec_next_shape h with ⟨c, -, rfl⟩ | ⟨out, rHdr, rKey, rPlen, rPoff, rfl⟩
  · exact keepsInputs_raise s c
  · exact keepsInputs_finishOk s out rHdr rKey rPlen rPoff

/-- The result registers of a completion have their reserved bits 0, and R_POFF one of its values (R24, R37). -/
theorem exec_keeps_reservedZero {i : Instr} {s t : State} (hz : s.ReservedZero) (h : exec i s = .next t) :
    t.ReservedZero := by
  obtain ⟨hcmd, hflags, hkeyLen, -⟩ := hz
  obtain ⟨hcommand, -⟩ := exec_keepsInputs h
  rw [State.ReservedZero, hcommand]
  refine ⟨hcmd, hflags, hkeyLen, ?_⟩
  obtain ⟨-, hnone⟩ | ⟨-, -, hheader⟩ := exec_decodeResult h
  · rw [hnone.rHdr, hnone.rPoff]
    decide
  · obtain ⟨flags, masked, marker, hrHdr⟩ := hheader.rHdr
    rw [hrHdr]
    exact ⟨headerWord_reserved flags masked marker, List.mem_cons_of_mem 0 hheader.rPoff⟩

/-- A completion stores at index 0, and its output fits: OUT_BUF stays in canonical form and within OUT_CAP (R41). -/
theorem Completion.outBuf_legal {s t : State} (h : Completion s t) (hwf : s.outBuf.wf)
    (hbelow : s.outBuf.below s.outCap) : t.outBuf.wf ∧ t.outBuf.below s.outCap := by
  cases h with
  | error c hc => exact ⟨hwf, hbelow⟩
  | success out rHdr rKey rPlen rPoff hfits =>
    exact ⟨writeBytes_wf hwf 0 out, writeBytes_below hbelow (by omega)⟩

theorem exec_keeps_inv {i : Instr} {s t : State} (hinv : s.Inv) (h : exec i s = .next t) : t.Inv := by
  obtain ⟨hcaps, ⟨hin, hout, hinBelow, houtBelow⟩, hz, -⟩ := hinv
  obtain ⟨-, hinBuf, hinCap, houtCap, -⟩ := exec_keepsInputs h
  obtain ⟨hout', houtBelow'⟩ := (exec_completion hcaps h).outBuf_legal hout houtBelow
  refine ⟨?_, ?_, exec_keeps_reservedZero hz h, fun hbusy => ?_⟩
  · rw [State.CapsLegal, hinCap, houtCap]
    exact hcaps
  · rw [State.BuffersLegal, hinBuf, hinCap, houtCap]
    exact ⟨hin, hout', hinBelow, houtBelow'⟩
  · rw [exec_busy h] at hbusy
    cases hbusy

/-! ## The invariant through a host operation -/

/-- The invariant speaks of the engine only. -/
theorem inv_of_sameEngine {s t : State} (h : SameEngine s t) (hinv : s.Inv) : t.Inv := by
  obtain ⟨hcommand, hresult, hcode, hbusy, hinBuf, houtBuf, hinCap, houtCap⟩ := h
  simpa only [State.Inv, State.CapsLegal, State.BuffersLegal, State.ReservedZero, State.inputReady, State.selected,
    State.inLen, hcommand, hresult, hbusy, hinBuf, houtBuf, hinCap, houtCap] using hinv

theorem reservedZero_resetWith (inCap outCap : Nat) : (State.resetWith inCap outCap).ReservedZero :=
  ⟨BitVec.zero_and, BitVec.zero_and, BitVec.zero_and, BitVec.zero_and, List.mem_cons_self⟩

theorem inv_resetWith {inCap outCap : Nat} (hin : inCap ≤ Config.maxCap) (hmin : Config.minOutCap ≤ outCap)
    (hmax : outCap ≤ Config.maxCap) : (State.resetWith inCap outCap).Inv := by
  exact ⟨⟨hin, hmin, hmax⟩, ⟨.nil, .nil, nofun, nofun⟩, reservedZero_resetWith inCap outCap, nofun⟩

theorem inv_afterReset {s : State} (hinv : s.Inv) : s.afterReset.Inv := by
  obtain ⟨⟨hin, hmin, hmax⟩, -⟩ := hinv
  exact inv_of_sameEngine ⟨rfl, rfl, rfl, rfl, rfl, rfl, rfl, rfl⟩ (inv_resetWith hin hmin hmax)

theorem writeRegister_keeps_inv {r : Reg} {v : Word} {s t : State} (hinv : s.Inv) (h : writeRegister r v s = .next t) :
    t.Inv := by
  obtain ⟨hcaps, hbuffers, hz, hinput⟩ := hinv
  have hz' := writeRegister_keeps_reservedZero hz h
  rcases writeRegister_next h with ⟨-, rfl⟩ | ⟨-, -, -, hready, rfl⟩ | ⟨-, hidle, rfl⟩
  · exact ⟨hcaps, hbuffers, hz', hinput⟩
  · exact ⟨hcaps, hbuffers, hz', fun _ => hready⟩
  · exact ⟨hcaps, hbuffers, hz', fun hbusy => absurd (hbusy.symm.trans hidle) (by decide)⟩

theorem writeBuffer_keeps_inv {s : State} (hinv : s.Inv) (hidle : s.busy = false) {buffer : Buffer} {a : Nat}
    (ha : a < s.capacity buffer) (b : Byte) : (s.writeBuffer buffer a b).Inv := by
  obtain ⟨hcaps, ⟨hin, hout, hinBelow, houtBelow⟩, hz, -⟩ := hinv
  cases buffer with
  | input =>
    exact ⟨hcaps, ⟨writeBytes_wf hin a [b], hout, writeBytes_below hinBelow ha, houtBelow⟩, hz,
      fun hbusy => absurd (hbusy.symm.trans hidle) (by decide)⟩
  | output =>
    exact ⟨hcaps, ⟨hin, writeBytes_wf hout a [b], hinBelow, writeBytes_below houtBelow ha⟩, hz,
      fun hbusy => absurd (hbusy.symm.trans hidle) (by decide)⟩

theorem hostPerform_keeps_inv {op : HostOp} {s t : State} (hinv : s.Inv) (h : hostPerform op s = .next t) : t.Inv := by
  cases op with
  | rd width offset =>
    obtain ⟨-, rfl⟩ := hostReadReg_next h
    exact hinv
  | wr width offset v =>
    obtain ⟨-, ⟨-, rfl⟩ | ⟨r, -, hw⟩⟩ := hostWriteReg_next h
    · exact hinv
    · exact writeRegister_keeps_inv hinv hw
  | rdb buffer width index =>
    obtain ⟨-, b, -, rfl⟩ := hostReadByte_next h
    exact inv_of_sameEngine (sameEngine_byteRead s buffer (.byte b) _) hinv
  | wrb buffer width index v =>
    obtain ⟨hadmitted, hidle, rfl⟩ := hostWriteByte_next h
    exact writeBuffer_keeps_inv hinv hidle (bufferAccessAdmitted_iff.1 hadmitted).2 v
  | wait =>
    cases h
    exact hinv
  | copyOutIn first count =>
    obtain ⟨-, rfl⟩ | ⟨left, b, -, -, -, rfl⟩ := hostCopy_next h
    · exact hinv
    · exact inv_of_sameEngine (sameEngine_byteRead s .output (.byte b) _) hinv
  | reset =>
    cases h
    exact inv_afterReset hinv

/-! ## The invariant through a turn -/

/-- All that the host's turn can do: nothing with an empty program, else its next operation. -/
theorem hostTurn_next {s t : State} (h : hostTurn s = .next t) :
    (s.hostQueue = [] ∧ t = s) ∨
      ∃ op rest, s.hostQueue = op :: rest ∧ hostPerform op { s with hostQueue := rest } = .next t := by
  unfold hostTurn at h
  split at h
  next hq => exact .inl ⟨hq, (Host.Outcome.next.inj h).symm⟩
  next op rest hq => exact .inr ⟨op, rest, hq, h⟩

/-- All that the engine's turn can do: nothing when it is idle, else the completion. -/
theorem engineTurn_next {s t : State} (h : engineTurn s = .next t) :
    (s.busy = false ∧ t = s) ∨ (s.busy = true ∧ exec s.selected s = .next t) := by
  unfold engineTurn at h
  split at h
  next hbusy => exact .inr ⟨hbusy, h⟩
  next hidle => exact .inl ⟨Bool.eq_false_iff.2 hidle, (Host.Outcome.next.inj h).symm⟩

theorem hostTurn_keeps_inv {s t : State} (hinv : s.Inv) (h : hostTurn s = .next t) : t.Inv := by
  obtain ⟨-, rfl⟩ | ⟨op, rest, -, hop⟩ := hostTurn_next h
  · exact hinv
  · exact hostPerform_keeps_inv (s := { s with hostQueue := rest }) hinv hop

theorem engineTurn_keeps_inv {s t : State} (hinv : s.Inv) (h : engineTurn s = .next t) : t.Inv := by
  obtain ⟨-, rfl⟩ | ⟨-, hexec⟩ := engineTurn_next h
  · exact hinv
  · exact exec_keeps_inv hinv hexec

/-! ## The statements -/

/-- Settles O3: the invariant speaks of the engine only, so taking a turn keeps it, and then each agent's move does. -/
theorem everyStepKeepsInvariant : Obligations.EveryStepKeepsInvariant := by
  unfold Obligations.EveryStepKeepsInvariant
  intro s t hinv h
  have hinv' : s.afterTurn.Inv := hinv
  cases hturn : s.turn with
  | engine => exact engineTurn_keeps_inv hinv' (step_of_engine hturn ▸ h)
  | host => exact hostTurn_keeps_inv hinv' (step_of_host hturn ▸ h)

/-- Settles O2: no byte is written, and every register is 0. -/
theorem resetMeetsInvariant : Obligations.ResetMeetsInvariant := by
  unfold Obligations.ResetMeetsInvariant
  exact ⟨fun inCap outCap hin hmin hmax => inv_resetWith hin hmin hmax,
    inv_resetWith (by decide) (by decide) (by decide)⟩

/-- Settles O19: a completion keeps its inputs, and the two buffers are disjoint storage. -/
theorem completionNeverWritesItsInputs : Obligations.CompletionNeverWritesItsInputs := by
  unfold Obligations.CompletionNeverWritesItsInputs
  refine ⟨fun i s t h => ⟨exec_keepsInputs h, exec_busy h⟩, fun s a b => ⟨?_, ?_⟩⟩
  · exact writeBuffer_buffer_other s (b := .output) (c := .input) (by decide) a b
  · exact writeBuffer_buffer_other s (b := .input) (c := .output) (by decide) a b

/-- Settles O22: a decoder is no plain command, and a completion gives a header or no decode result. -/
theorem decodeResultsComeFromDecodersOnly : Obligations.DecodeResultsComeFromDecodersOnly := by
  unfold Obligations.DecodeResultsComeFromDecodersOnly
  intro i s t h
  obtain ⟨hplain, hnone⟩ | ⟨hplain, hok, hheader⟩ := exec_decodeResult h
  · refine ⟨fun hdecoder hok => ?_, fun _ => ⟨hnone.rHdr, hnone.rKey, hnone.rPlen, hnone.rPoff⟩⟩
    obtain hmem | herror := hplain
    · exact absurd hdecoder (not_isDecoder_of_plain i hmem)
    · exact absurd hok herror
  · obtain ⟨flags, masked, marker, hrHdr⟩ := hheader.rHdr
    refine ⟨fun _ _ => ⟨hheader.rPoff, hrHdr ▸ headerWord_lt flags masked marker⟩, fun h => ?_⟩
    exact absurd hok (h.resolve_left hplain)

end Sys2Proof.Machine

/-! # Proofs: the two encodings undone (`30_encoding.md` §1, §2)

Each decoder on what its encoder writes, and what the frame decoder accepts, then the statements. -/

namespace Sys2Proof.Machine

/-! ## Command words (R61) -/

theorem decodeCommand_commandWord_parse (autoUnmask : Bool) :
    decodeCommand (commandWord 5 autoUnmask) = .parse autoUnmask := by
  cases autoUnmask <;> rfl

/-! ## The key field (R67) -/

theorem decodeKey_keyField (key : Option Word) (rest : List Byte) :
    decodeKey key.isSome (keyField key ++ rest) = .ok (key, rest) := by
  cases key with
  | none => rfl
  | some k =>
    show Except.ok (some _, rest) = _
    rw [append_bytes32]

theorem decodeKey_eq_ok {masked : Bool} {bytes rest : List Byte} {key : Option Word}
    (h : decodeKey masked bytes = .ok (key, rest)) : key.isSome = masked ∧ bytes = keyField key ++ rest := by
  unfold decodeKey at h
  split at h
  · cases h
    exact ⟨rfl, rfl⟩
  · cases h
    rw [keyField, be32_append]
    exact ⟨rfl, rfl⟩
  · cases h

/-! ## Frame headers (R64 to R67) -/

theorem encode_frameLen7 (flags : FrameFlags) (marker : BitVec 7) (key : Option Word) :
    encode (.frameLen7 flags marker key) = .frame (wireHeader flags marker [] key) := rfl

section

variable (flags : FrameFlags) (key : Option Word) (rest : List Byte)

theorem decodeFrame_wireHeader7 {marker : BitVec 7} (hmarker : marker.toNat ≤ 125) :
    decodeFrame (wireHeader flags marker [] key ++ rest) = .ok (.frameLen7 flags marker key, rest) := by
  simp [decodeFrame, wireHeader, hmarker, decodeKey_keyField, Except.map]

theorem decodeFrame_wireHeader16 (length : BitVec 16) :
    decodeFrame (wireHeader flags 126 (be16 length) key ++ rest) = .ok (.frameLen16 flags length key, rest) := by
  simp [decodeFrame, wireHeader, be16, append_bytes16, decodeKey_keyField, Except.map]

theorem decodeFrame_wireHeader64 (length : DWord) :
    decodeFrame (wireHeader flags 127 (be64 length) key ++ rest) = .ok (.frameLen64 flags length key, rest) := by
  simp [decodeFrame, wireHeader, be64, append_bytes64, decodeKey_keyField, Except.map]

end

/-- A decoded key, with the instruction made of it. -/
theorem decodeKey_map_eq_ok {masked : Bool} {body rest : List Byte} {f : Option Word → Instr} {i : Instr}
    (h : ((decodeKey masked body).map fun (key, rest) => (f key, rest)) = .ok (i, rest)) :
    ∃ key, i = f key ∧ key.isSome = masked ∧ body = keyField key ++ rest := by
  cases hkey : decodeKey masked body with
  | error e => rw [hkey] at h; cases h
  | ok keyAndRest =>
    obtain ⟨key, rest'⟩ := keyAndRest
    rw [hkey] at h
    cases h
    exact ⟨key, rfl, decodeKey_eq_ok hkey⟩

/-- The header made of the fields of bytes 0 and 1 starts with these bytes. -/
theorem wireHeader_of_bytes (b0 b1 : Byte) (ext : List Byte) {key : Option Word} (hkey : key.isSome = b1.getLsbD 7) :
    wireHeader (FrameFlags.ofByte0 b0) (b1.extractLsb' 0 7) ext key = b0 :: b1 :: (ext ++ keyField key) := by
  rw [wireHeader, hkey, byte0_ofByte0, frameByte1_eta]

theorem decodeFrame_eq_ok {bytes rest : List Byte} {i : Instr} (h : decodeFrame bytes = .ok (i, rest)) :
    i.wellFormed = true ∧ ∃ header, encode i = .frame header ∧ bytes = header ++ rest := by
  unfold decodeFrame at h
  split at h
  case h_2 => cases h
  case h_1 b0 b1 body =>
    simp only at h
    split_ifs at h with h7 h16
    · obtain ⟨key, rfl, hkey, rfl⟩ := decodeKey_map_eq_ok h
      refine ⟨decide_eq_true h7, _, encode_frameLen7 _ _ _, ?_⟩
      rw [wireHeader_of_bytes b0 b1 [] hkey]
      rfl
    · split at h
      case h_2 => cases h
      case h_1 l0 l1 body =>
        obtain ⟨key, rfl, hkey, rfl⟩ := decodeKey_map_eq_ok h
        have hmarker : (126 : BitVec 7) = b1.extractLsb' 0 7 := BitVec.eq_of_toNat_eq h16.symm
        refine ⟨rfl, _, encode_frameLen16 _ _ _, ?_⟩
        rw [hmarker, wireHeader_of_bytes b0 b1 _ hkey, be16_append]
        rfl
    · split at h
      case h_2 => cases h
      case h_1 l0 l1 l2 l3 l4 l5 l6 l7 body =>
        obtain ⟨key, rfl, hkey, rfl⟩ := decodeKey_map_eq_ok h
        have hmarker : (127 : BitVec 7) = b1.extractLsb' 0 7 := BitVec.eq_of_toNat_eq (by
          have := (b1.extractLsb' 0 7).isLt
          show 127 = _
          omega)
        refine ⟨rfl, _, encode_frameLen64 _ _ _, ?_⟩
        rw [hmarker, wireHeader_of_bytes b0 b1 _ hkey, be64_append]
        rfl

/-! ## The statements -/

/-- Settles O9, one row of the table after another. -/
theorem decodeInvertsEncode : Obligations.DecodeInvertsEncode := by
  unfold Obligations.DecodeInvertsEncode
  intro i rest hwf
  cases i with
  | mask | hdrEncode | hdrDecode | build | reservedOp0 | reservedOp6 | reservedOp7 => rfl
  | parse autoUnmask =>
    show Except.ok (decodeCommand _, []) = _
    rw [decodeCommand_commandWord_parse]
    rfl
  | frameLen7 flags marker key => exact decodeFrame_wireHeader7 flags key rest (of_decide_eq_true hwf)
  | frameLen16 flags length key => exact decodeFrame_wireHeader16 flags key rest length
  | frameLen64 flags length key => exact decodeFrame_wireHeader64 flags key rest length

/-- Settles O10, from what the frame decoder accepts. -/
theorem encodeInvertsFrameDecode : Obligations.EncodeInvertsFrameDecode := by
  unfold Obligations.EncodeInvertsFrameDecode
  exact fun bytes rest i h => decodeFrame_eq_ok h

/-- Settles O8, by running the two decoders on the words written out. -/
theorem wordsOfTheSpecDecode : Obligations.WordsOfTheSpecDecode := by
  unfold Obligations.WordsOfTheSpecDecode
  decide

end Sys2Proof.Machine

/-! # Proofs: the wire rows (`30_encoding.md` §2, `41_header_codec.md` §2)

What a wire row reports, and that HDR_DECODE of its bytes reports the same, then the statements. -/

namespace Sys2Proof.Machine

/-! ## HDR_DECODE of a wire row's bytes -/

theorem declaredLength_literal {marker : BitVec 7} (h : marker.toNat ≤ 125) (buf : List Byte) :
    declaredLength buf marker = some (marker.setWidth 64, 2) := by
  rw [declaredLength, if_pos h]

/-- The completion of a decoded wire header is the completion of its row. -/
theorem finishDecoded_wireHeader (s : State) (flags : FrameFlags) (marker : BitVec 7) (key : Option Word) (plen : DWord)
    (hl : Nat) :
    finishDecoded s [] { flags, masked := key.isSome, marker, plen, key := be32 (key.getD 0),
                         poff := hl + if key.isSome then 4 else 0 } = finishFrame s flags marker key plen hl := by
  rw [finishDecoded, keyWord_be32, finishFrame]
  cases key <;> rfl

/-- The bytes of a wire row, whatever follows them, decode to a header whose completion is the meaning of the row. -/
theorem exec_of_encode_frame {i : Instr} {header : List Byte} (hwf : i.wellFormed = true)
    (henc : encode i = .frame header) (rest : List Byte) :
    ∃ h, hdrDecode (header ++ rest) = some h ∧ ∀ s, exec i s = .next (finishDecoded s [] h) := by
  cases i with
  | frameLen7 flags marker key =>
    cases henc
    exact ⟨_, hdrDecode_wireHeader (ext := []) (declaredLength_literal (of_decide_eq_true hwf) _), fun s =>
      congrArg _ (finishDecoded_wireHeader s flags marker key _ 2).symm⟩
  | frameLen16 flags length key =>
    cases henc
    exact ⟨_, hdrDecode_wireHeader (declaredLength_wireHeader16 flags length key rest), fun s =>
      congrArg _ (finishDecoded_wireHeader s flags 126 key _ 4).symm⟩
  | frameLen64 flags length key =>
    cases henc
    exact ⟨_, hdrDecode_wireHeader (declaredLength_wireHeader64 flags length key rest), fun s =>
      congrArg _ (finishDecoded_wireHeader s flags 127 key _ 10).symm⟩
  | _ => cases henc

/-- A header has at most 14 bytes (R67). -/
theorem length_of_encode_frame {i : Instr} {header : List Byte} (henc : encode i = .frame header) :
    header.length ≤ 14 := by
  cases i with
  | frameLen7 flags marker key =>
    cases henc
    exact (Laws.EncodeShape.frameLen7 flags marker key).2
  | frameLen16 flags length key =>
    cases henc
    exact (Laws.EncodeShape.frameLen16 flags length key).2
  | frameLen64 flags length key =>
    cases henc
    exact (Laws.EncodeShape.frameLen64 flags length key).2
  | _ => cases henc

/-- HDR_DECODE reads the first 14 bytes, and so the whole header (R44). -/
theorem exec_hdrDecode_of_encode_frame {i : Instr} {header rest : List Byte} {s : State} (hwf : i.wellFormed = true)
    (henc : encode i = .frame header) (hin : s.inLen.toNat ≤ s.inCap)
    (hdata : s.inBuf.readBytes 0 s.inLen.toNat = some (header ++ rest)) : exec .hdrDecode s = exec i s := by
  have hheaderLength := length_of_encode_frame henc
  have hinputLength := (readBytes_eq_some.1 hdata).1
  have hfirst := readBytes_take hdata (min_le_left _ 14)
  rw [List.length_append] at hinputLength
  rw [List.take_append, List.take_of_length_le (by omega)] at hfirst
  obtain ⟨h, hheader, hexec⟩ := exec_of_encode_frame hwf henc (rest.take (min s.inLen.toNat 14 - header.length))
  rw [exec_hdrDecode_of_some hin hfirst hheader, hexec]

/-! ## What a wire row reports -/

/-- The report of a wire row: its first two bytes, its key, its declared length and its payload offset. -/
theorem exec_reports_of_finishFrame {i : Instr} {s : State} {flags : FrameFlags} {marker : BitVec 7} {key : Option Word}
    {plen : DWord} {hl m length : Nat} (h : exec i s = .next (finishFrame s flags marker key plen hl))
    (hhl : hl ≤ 10) (hmarker : marker.toNat = m) (hlength : plen.toNat = length) :
    ∃ t, exec i s = .next t ∧ CompletedOk s t ∧ t.outLen = 0 ∧ (∀ a, t.outBuf.read a = s.outBuf.read a) ∧
      t.result.rHdr.toNat = (if key.isSome then 32768 else 0) + m * 256 + flags.byte0.toNat ∧
      t.result.rKey = key.getD 0 ∧ t.rPlen.toNat = length ∧
      t.result.rPoff.toNat = hl + (if key.isSome then 4 else 0) := by
  refine ⟨_, h, ⟨rfl, rfl, keepsInputs_finishOk s [] _ _ _ _⟩, finishOk_outLen s [] _ _ _ _, fun a => ?_, ?_, rfl,
    ?_, ?_⟩
  · rw [finishFrame, finishOk_outBuf, writeBytes_nil]
  · rw [finishFrame, finishOk_result, headerWord_toNat, frameByte1_toNat, hmarker]
    split <;> omega
  · rw [finishFrame, finishOk_rPlen, hlength]
  · rw [finishFrame, finishOk_result, toNat_ofNat_of_lt] <;> split <;> omega

/-! ## The statements -/

/-- Settles O5: the completion due is HDR_DECODE's, which reads the whole header. -/
theorem stepRunsTheHeaderInTheInputBuffer : Obligations.StepRunsTheHeaderInTheInputBuffer := by
  unfold Obligations.StepRunsTheHeaderInTheInputBuffer
  intro s i header rest hwf henc hnext hselected hin hdata
  rw [step_of_completionNext hnext, hselected]
  exact exec_hdrDecode_of_encode_frame (s := s.afterTurn) hwf henc hin hdata

/-- Settles O18: the three rows differ in their marker, their length and their header length only. -/
theorem wireRowsReportLengthAndOffset : Obligations.WireRowsReportLengthAndOffset := by
  unfold Obligations.WireRowsReportLengthAndOffset
  intro s flags key
  refine ⟨fun marker => ?_, fun length => ?_, fun length => ?_⟩
  · exact exec_reports_of_finishFrame rfl (by omega) rfl (BitVec.toNat_setWidth_of_le (by omega))
  · exact exec_reports_of_finishFrame rfl (by omega) rfl (BitVec.toNat_setWidth_of_le (by omega))
  · exact exec_reports_of_finishFrame rfl (by omega) rfl rfl

end Sys2Proof.Machine

/-! # Proofs: the completions of each command (`60_exceptions.md` §1, `20_memory.md` §5)

The codes a completion can have, and that a command in flight has one, then the statements. -/

namespace Sys2Proof.Machine

/-! ## The codes of each command (R105) -/

@[simp] theorem finishDecoded_code (s : State) (out : List Byte) (h : Header) :
    (finishDecoded s out h).code = .ok := rfl

theorem exec_code_mem {i : Instr} {s t : State} (h : exec i s = .next t) : t.code ∈ statusCodesOf i := by
  cases i with
  | mask =>
    rcases execMask_next h with ⟨-, rfl⟩ | ⟨-, -, rfl⟩ | ⟨-, -, -, rfl⟩ | ⟨-, -, -, data, -, rfl⟩
    all_goals simp [statusCodesOf]
  | hdrDecode =>
    rcases execHdrDecode_next h with ⟨-, rfl⟩ | ⟨-, data, -, ⟨-, rfl⟩ | ⟨hdr, -, rfl⟩⟩
    all_goals simp [statusCodesOf]
  | build =>
    rcases execBuild_next h with ⟨-, rfl⟩ | ⟨-, -, -, rfl⟩ | ⟨-, -, -, rfl⟩ | ⟨-, -, -, payload, -, rfl⟩
    all_goals simp [statusCodesOf]
  | parse autoUnmask =>
    rcases execParse_next h with
      ⟨-, rfl⟩ | ⟨-, data, -, ⟨-, rfl⟩ | ⟨hdr, -, ⟨-, rfl⟩ | ⟨-, -, rfl⟩ | ⟨-, -, rfl⟩⟩⟩
    all_goals simp [statusCodesOf]
  | hdrEncode | reservedOp0 | reservedOp6 | reservedOp7 | frameLen7 | frameLen16 | frameLen64 =>
    cases h
    exact List.mem_cons_self

/-! ## Room in OUT_BUF (R81, R100) -/

theorem exec_mask_code_ne_allocationFailure {s t : State} (hcaps : s.inCap ≤ s.outCap) (h : exec .mask s = .next t) :
    t.code ≠ .allocationFailure := by
  rcases execMask_next h with ⟨-, rfl⟩ | ⟨-, -, rfl⟩ | ⟨hin, -, hout, -⟩ | ⟨-, -, -, data, -, rfl⟩
  case inr.inr.inl => omega
  all_goals exact nofun

/-- The declared length of a frame that passes the length check is at most IN_LEN (R98). -/
theorem exec_parse_code_ne_allocationFailure {s t : State} {autoUnmask : Bool} (hcaps : s.inCap ≤ s.outCap)
    (h : exec (.parse autoUnmask) s = .next t) : t.code ≠ .allocationFailure := by
  rcases execParse_next h with
    ⟨-, rfl⟩ | ⟨hin, data, hdata, ⟨-, rfl⟩ | ⟨hdr, -, ⟨-, rfl⟩ | ⟨hsum, hout, -⟩ | ⟨-, -, rfl⟩⟩⟩
  case inr.inr.inr.inl =>
    have hlength := (readBytes_eq_some.1 hdata).1
    omega
  all_goals exact nofun

/-! ## A command in flight completes (R56) -/

theorem exec_next_of_not_readsInput {i : Instr} (h : readsInput i = false) (s : State) : ∃ t, exec i s = .next t := by
  cases i with
  | mask | hdrDecode | build | parse => cases h
  | hdrEncode | reservedOp0 | reservedOp6 | reservedOp7 | frameLen7 | frameLen16 | frameLen64 => exact ⟨_, rfl⟩

/-- An instruction that reads IN_BUF is a command, no wire row. -/
theorem encode_of_readsInput {i : Instr} (h : readsInput i = true) : ∃ w, encode i = .command w := by
  cases i with
  | mask | hdrDecode | build | parse => exact ⟨_, rfl⟩
  | hdrEncode | reservedOp0 | reservedOp6 | reservedOp7 | frameLen7 | frameLen16 | frameLen64 => cases h

/-- With its input written the selected command answers a next state, whose code the table of R114 gives. -/
theorem exec_selected_next {s : State} (hready : s.inputReady = true) : ∃ t, exec s.selected s = .next t := by
  cases hreads : readsInput s.selected with
  | false => exact exec_next_of_not_readsInput hreads s
  | true =>
    rw [State.inputReady, hreads, Bool.not_true, Bool.false_or] at hready
    obtain ⟨d, hd⟩ := Option.isSome_iff_exists.1 hready
    obtain ⟨w, hw⟩ := encode_of_readsInput hreads
    obtain ⟨t, ht, -⟩ := firstErrorInTheTableIsReported s s.selected w d hw hd
    exact ⟨t, ht⟩

/-! ## The statements -/

/-- Settles O23: STATUS is its code alone once BUSY is 0. -/
theorem statusCodesOfEachCommand : Obligations.StatusCodesOfEachCommand := by
  unfold Obligations.StatusCodesOfEachCommand
  intro i s t h
  refine ⟨exec_code_mem h, ?_⟩
  rw [State.register, State.statusWord, exec_busy h]
  cases t.code <;> rfl

/-- Settles O26: the invariant has the input of a command in flight written. -/
theorem everyCommandInFlightCanComplete : Obligations.EveryCommandInFlightCanComplete := by
  unfold Obligations.EveryCommandInFlightCanComplete
  intro s hinv hbusy
  obtain ⟨-, -, -, hready⟩ := hinv
  obtain ⟨t, ht⟩ := exec_selected_next (hready hbusy)
  exact ⟨t, ht, exec_busy ht⟩

/-- Settles O27: what MASK and PARSE store is no longer than their input. -/
theorem noAllocationFailureWhenOutputIsAsLarge : Obligations.NoAllocationFailureWhenOutputIsAsLarge := by
  unfold Obligations.NoAllocationFailureWhenOutputIsAsLarge
  exact fun s t autoUnmask hcaps =>
    ⟨exec_mask_code_ne_allocationFailure hcaps, exec_parse_code_ne_allocationFailure hcaps⟩

end Sys2Proof.Machine

/-! # Proofs: the accesses of the host (`10_state.md` §3, `20_memory.md` §3, `70_reset_and_hazards.md` §3)

The registers, their reads and writes, and the accesses that are not admitted, then the statements. -/

namespace Sys2Proof.Machine

/-! ## Register values (R23, R32) -/

theorem statusWord_toNat (s : State) : s.statusWord.toNat = (if s.busy then 2 ^ 31 else 0) + s.code.bits.toNat := by
  unfold State.statusWord
  cases s.busy <;> cases s.code <;> rfl

@[simp] theorem readOffset_offset (s : State) (r : Reg) : s.readOffset r.offset = s.register r := by
  rw [State.readOffset, atOffset_offset]

/-- A command register after a write to it holds the value's named bits, and every other register is as it was. -/
theorem register_set {r : Reg} (hr : r.isCommand = true) (s : State) (v : Word) (r' : Reg) :
    State.register { s with command := s.command.set r v } r' =
      if r' = r then v &&& r.namedBits else s.register r' := by
  cases r
  case start | status | outLenLo | outLenHi | rHdr | rKey | rPlenLo | rPlenHi | rPoff => cases hr
  all_goals cases r' <;> rfl

/-! ## Accesses that are not admitted (R49) -/

section

variable {s : State}

theorem registerAccess_not_admitted {width offset : Nat} (h : width ≠ 32 ∨ offset % 4 ≠ 0 ∨ 0xFF < offset) :
    ¬ registerAccessAdmitted width offset = true := by
  rw [registerAccessAdmitted_iff]
  omega

theorem bufferAccess_not_admitted {buffer : Buffer} {width index : Nat}
    (h : width ≠ 8 ∨ s.capacity buffer ≤ index) : ¬ bufferAccessAdmitted s buffer width index = true := by
  rw [bufferAccessAdmitted_iff]
  omega

/-! ## Reads that are taken (R50) -/

theorem hostReadReg_of_admitted {offset : Nat} (ha : offset % 4 = 0) (hl : offset ≤ 0xFF) :
    hostReadReg 32 offset s = .next (s.recordRead (.word (s.readOffset offset))) := by
  rw [hostReadReg, if_pos (registerAccessAdmitted_iff.2 ⟨rfl, ha, hl⟩)]

theorem hostReadReg_offset (r : Reg) : hostReadReg 32 r.offset s = .next (s.recordRead (.word (s.register r))) := by
  rw [hostReadReg, if_pos (registerAccessAdmitted_offset r), readOffset_offset]

theorem hostReadByte_of_some {buffer : Buffer} {index : Nat} {b : Byte} (hi : index < s.capacity buffer)
    (hb : s.bufferByte buffer index = some b) :
    hostReadByte buffer 8 index s = .next ((s.countDraw buffer).recordRead (.byte b)) := by
  rw [hostReadByte, if_pos (bufferAccessAdmitted_iff.2 ⟨rfl, hi⟩), hb]

end

/-- During BUSY a read of OUT_BUF draws a free byte (R131, log 3), of an unwritten byte too (log 17). -/
theorem bufferByte_output_of_busy {s : State} (hb : s.busy = true) (index : Nat) :
    s.bufferByte .output index = some (Config.freeByte s.freeCount) := by
  simp [State.bufferByte, State.freeRead, hb]

theorem countDraw_output_of_busy {s : State} (hb : s.busy = true) :
    s.countDraw .output = { s with freeCount := s.freeCount + 1 } := by
  simp [State.countDraw, State.freeRead, hb]

theorem sameEngine_recordRead (s : State) (v : HostValue) : SameEngine s (s.recordRead v) :=
  ⟨rfl, rfl, rfl, rfl, rfl, rfl, rfl, rfl⟩

section

variable {s : State} {rest : List HostOp}

theorem step_rd {r : Reg} (hn : s.HostNext (.rd 32 r.offset) rest) :
    step s = .next ((s.afterHostTurn rest).recordRead (.word (s.register r))) := by
  rw [step_of_hostNext hn]
  exact hostReadReg_offset r

theorem step_rdb {buffer : Buffer} {a : Nat} {b : Byte} (ha : a < s.capacity buffer)
    (hbyte : s.bufferByte buffer a = some b) (hn : s.HostNext (.rdb buffer 8 a) rest) :
    step s = .next (((s.afterHostTurn rest).countDraw buffer).recordRead (.byte b)) := by
  rw [step_of_hostNext hn]
  refine hostReadByte_of_some (s := s.afterHostTurn rest) (by simpa using ha) ?_
  rw [← hbyte]
  cases buffer <;> rfl

theorem step_wr_command {r : Reg} {v : Word} (hr : r.isCommand = true) (hidle : s.busy = false)
    (hn : s.HostNext (.wr 32 r.offset v) rest) :
    step s = .next { s.afterHostTurn rest with command := s.command.set r v } := by
  rw [step_of_hostNext hn, hostPerform, hostWriteReg_offset, writeRegister_command hr]
  exact if_neg (Bool.eq_false_iff.1 hidle)

end

/-! ## The statements -/

/-- Settles O37, from the write of one command register. -/
theorem commandRegisterReadsBackAsWritten : Obligations.CommandRegisterReadsBackAsWritten := by
  unfold Obligations.CommandRegisterReadsBackAsWritten
  intro s r v rest hidle hr hn
  have hcommand := isCommand_of_mem r hr
  have hset := register_set hcommand (s.afterHostTurn rest) v
  exact ⟨_, step_wr_command hcommand hidle hn, (hset r).trans (if_pos rfl), fun r' hr' => (hset r').trans (if_neg hr'),
    hidle, rfl, rfl, rfl, rfl, rfl, rfl⟩

/-- Settles O41: admission is the first check of every access. -/
theorem onlyAdmittedAccessesAreTaken : Obligations.OnlyAdmittedAccessesAreTaken := by
  unfold Obligations.OnlyAdmittedAccessesAreTaken
  intro s rest
  refine ⟨fun width offset h => ?_, fun buffer width index h => ?_, fun offset ha hl hn => ?_⟩
  · have hnot := registerAccess_not_admitted h
    refine ⟨fun hn => ?_, fun v hn => ?_⟩
    · rw [step_of_hostNext hn, hostPerform, hostReadReg, if_neg hnot]
    · rw [step_of_hostNext hn, hostPerform, hostWriteReg, if_neg hnot]
  · have hnot := bufferAccess_not_admitted (s := s.afterHostTurn rest) (by simpa using h)
    refine ⟨fun hn => ?_, fun b hn => ?_⟩
    · rw [step_of_hostNext hn, hostPerform, hostReadByte, if_neg hnot]
    · rw [step_of_hostNext hn, hostPerform, hostWriteByte, if_neg hnot]
  · exact ⟨_, (step_of_hostNext hn).trans (hostReadReg_of_admitted ha hl), rfl⟩

/-- Settles O42, from what a read that is taken can do. -/
theorem hostReadsHaveNoSideEffects : Obligations.HostReadsHaveNoSideEffects := by
  unfold Obligations.HostReadsHaveNoSideEffects
  rintro s t rest h (⟨width, offset, hn⟩ | ⟨buffer, width, index, hn⟩)
  · rw [step_of_hostNext hn] at h
    obtain ⟨-, rfl⟩ := hostReadReg_next h
    exact ⟨sameEngine_recordRead _ _, rfl, _, rfl⟩
  · rw [step_of_hostNext hn] at h
    obtain ⟨-, b, -, rfl⟩ := hostReadByte_next h
    refine ⟨sameEngine_byteRead (s.afterHostTurn rest) buffer (.byte b) _, ?_, .byte b, ?_⟩
    · rw [recordRead_hostQueue, countDraw_hostQueue, afterHostTurn_hostQueue]
    · rw [recordRead_hostReads, countDraw_hostReads, afterHostTurn_hostReads]

/-- Settles O43: outside BUSY the byte read is the one that stands in the buffer. -/
theorem bufferReadReturnsTheWrittenByte : Obligations.BufferReadReturnsTheWrittenByte := by
  unfold Obligations.BufferReadReturnsTheWrittenByte
  intro s buffer a b rest hidle ha hb hn
  refine ⟨_, step_rdb ha ((bufferByte_of_idle hidle buffer a).trans hb) hn,
    sameEngine_byteRead (s.afterHostTurn rest) buffer (.byte b) _, ?_⟩
  rw [recordRead_hostReads, countDraw_hostReads, afterHostTurn_hostReads]

/-- Settles O45: a register read returns what stands in the register, a read of OUT_BUF a free byte. -/
theorem hostReadsDuringBusyReturnPreviousValues : Obligations.HostReadsDuringBusyReturnPreviousValues := by
  unfold Obligations.HostReadsDuringBusyReturnPreviousValues
  intro s rest hbusy
  refine ⟨fun hn => ?_, fun r hn => ⟨_, step_rd hn, sameEngine_recordRead _ _, rfl⟩, fun a ha hn => ?_⟩
  · refine ⟨_, _, step_rd (r := .status) hn, sameEngine_recordRead _ _, rfl, ?_⟩
    rw [State.register, statusWord_toNat, hbusy, if_pos rfl]
  · have hdraw := countDraw_output_of_busy (s := s.afterHostTurn rest) hbusy
    refine ⟨_, step_rdb (buffer := .output) ha (bufferByte_output_of_busy hbusy a) hn, ?_⟩
    rw [hdraw]
    exact ⟨⟨rfl, rfl, rfl, rfl, rfl, rfl, rfl, rfl⟩, rfl, rfl⟩

/-- Settles O6: a step at the host's turn is its next operation. -/
theorem hostOperationsTakeEffectInOrder : Obligations.HostOperationsTakeEffectInOrder := by
  unfold Obligations.HostOperationsTakeEffectInOrder
  exact fun s op rest hn => step_of_hostNext hn

/-- Settles O36: each offset of the map is its register's, and those above are reserved. -/
theorem registerMapReadsEachRegister : Obligations.RegisterMapReadsEachRegister := by
  unfold Obligations.RegisterMapReadsEachRegister
  intro s
  have hmap := readOffset_offset s
  exact ⟨hmap .cmd, hmap .flags, hmap .key, hmap .keyLen, hmap .plenLo, hmap .plenHi, hmap .inLenLo, hmap .inLenHi,
    hmap .start, statusWord_toNat s, hmap .outLenLo, hmap .outLenHi, hmap .rHdr, hmap .rKey, hmap .rPlenLo,
    hmap .rPlenHi, hmap .rPoff, fun offset => readOffset_of_reserved⟩

end Sys2Proof.Machine

/-! # Proofs: runs (`20_memory.md` §5, `30_encoding.md` §4, `70_reset_and_hazards.md` §1, §2, §4)

Progress over the turns, which every step shortens; what a run comes to with no command in flight, and with one, then
the statements. -/

namespace Sys2Proof.Machine

/-! ## Runs -/

/-- Some number of steps leads from one state to the other. -/
def Reaches (s t : State) : Prop :=
  ∃ k, Host.Core.run Sys2Proof.core k s = .next t

theorem Reaches.refl (s : State) : Reaches s s := ⟨0, rfl⟩

theorem Reaches.trans {s t u : State} (hst : Reaches s t) (htu : Reaches t u) : Reaches s u := by
  obtain ⟨k, hk⟩ := hst
  obtain ⟨l, hl⟩ := htu
  exact ⟨k + l, (run_add hk).trans hl⟩

theorem reaches_of_step {s t : State} (h : step s = .next t) : Reaches s t :=
  ⟨1, run_of_step_next h 0⟩

/-! ## Every step takes a turn (log 2) -/

theorem hostPerform_turns {op : HostOp} {s t : State} (h : hostPerform op s = .next t) : t.turns = s.turns := by
  cases op with
  | rd width offset =>
    obtain ⟨-, rfl⟩ := hostReadReg_next h
    rfl
  | wr width offset v =>
    obtain ⟨-, ⟨-, rfl⟩ | ⟨r, -, hw⟩⟩ := hostWriteReg_next h
    · rfl
    · rcases writeRegister_next hw with ⟨-, rfl⟩ | ⟨-, -, -, -, rfl⟩ | ⟨-, -, rfl⟩ <;> rfl
  | rdb buffer width index =>
    obtain ⟨-, b, -, rfl⟩ := hostReadByte_next h
    rw [recordRead_turns, countDraw_turns]
  | wrb buffer width index v =>
    obtain ⟨-, -, rfl⟩ := hostWriteByte_next h
    rw [writeBuffer_turns]
  | wait =>
    cases h
    rfl
  | copyOutIn first count =>
    obtain ⟨-, rfl⟩ | ⟨left, b, -, -, -, rfl⟩ := hostCopy_next h
    · rfl
    · simp
  | reset =>
    cases h
    rfl

theorem hostTurn_turns {s t : State} (h : hostTurn s = .next t) : t.turns = s.turns := by
  obtain ⟨-, rfl⟩ | ⟨op, rest, -, hop⟩ := hostTurn_next h
  · rfl
  · exact hostPerform_turns (s := { s with hostQueue := rest }) hop

theorem engineTurn_turns {s t : State} (h : engineTurn s = .next t) : t.turns = s.turns := by
  obtain ⟨-, rfl⟩ | ⟨-, hexec⟩ := engineTurn_next h
  · rfl
  · obtain ⟨-, -, -, -, -, -, hturns, -⟩ := exec_keepsInputs hexec
    exact hturns

theorem step_turns {s t : State} (h : step s = .next t) : t.turns = s.turns.tail := by
  cases hturn : s.turn with
  | engine => exact engineTurn_turns (step_of_engine hturn ▸ h)
  | host => exact hostTurn_turns (step_of_host hturn ▸ h)

/-- Progress over the turns: a run keeps `P` and comes to `Q`, if every step from `P` short of `Q` keeps `P`, and `Q` holds
at the latest when the turns are used up. -/
theorem exists_reaches_of_progress {P Q : State → Prop}
    (hprogress : ∀ s, P s → Q s ∨ (s.turns ≠ [] ∧ ∃ t, step s = .next t ∧ P t)) {s : State} (hs : P s) :
    ∃ t, Reaches s t ∧ P t ∧ Q t := by
  induction hturns : s.turns generalizing s with
  | nil =>
    obtain hq | ⟨hne, -⟩ := hprogress s hs
    · exact ⟨s, .refl s, hs, hq⟩
    · exact absurd hturns hne
  | cons agent later ih =>
    obtain hq | ⟨-, t, hstep, ht⟩ := hprogress s hs
    · exact ⟨s, .refl s, hs, hq⟩
    · obtain ⟨u, hreach, hu⟩ := ih ht (by rw [step_turns hstep, hturns, List.tail_cons])
      exact ⟨u, (reaches_of_step hstep).trans hreach, hu⟩

/-! ## With no command in flight -/

theorem engineTurn_of_idle {s : State} (hidle : s.busy = false) : engineTurn s = .next s := by
  rw [engineTurn, if_neg (Bool.eq_false_iff.1 hidle)]

theorem step_of_idle_engine {s : State} (hidle : s.busy = false) (hturn : s.turn = .engine) :
    step s = .next s.afterTurn := by
  rw [step_of_engine hturn, engineTurn_of_idle (s := s.afterTurn) hidle]

theorem step_of_idle {s : State} (hidle : s.busy = false) (hq : s.hostQueue = []) : step s = .next s.afterTurn := by
  cases hturn : s.turn with
  | engine => exact step_of_idle_engine hidle hturn
  | host => rw [step_of_host hturn, hostTurn, afterTurn_hostQueue, hq]

/-- An idle engine without a host program stays as it is for any number of steps (R125). -/
theorem run_of_idle {s : State} (hidle : s.busy = false) (hq : s.hostQueue = []) (k : Nat) :
    ∃ u, Host.Core.run Sys2Proof.core k s = .next u ∧ SameEngine s u := by
  induction k generalizing s with
  | zero => exact ⟨s, rfl, sameEngine_refl s⟩
  | succ k ih =>
    rw [run_of_step_next (step_of_idle hidle hq)]
    exact ih (s := s.afterTurn) hidle hq

theorem turns_ne_nil_of_engine {s : State} (hidle : s.busy = false) (hturn : s.turn = .engine) : s.turns ≠ [] := by
  intro hnil
  rw [turn_of_turns_nil hnil, hidle, if_neg Bool.false_ne_true] at hturn
  cases hturn

/-- With no command in flight it is the host's turn, or a step only takes a turn. -/
theorem hostTurn_or_step_of_idle {s : State} (hidle : s.busy = false) :
    s.turn = .host ∨ (s.turns ≠ [] ∧ step s = .next s.afterTurn) := by
  cases hturn : s.turn with
  | host => exact .inl rfl
  | engine => exact .inr ⟨turns_ne_nil_of_engine hidle hturn, step_of_idle_engine hidle hturn⟩

/-- With no command in flight it comes to be the host's turn, only the turns changed. -/
theorem reaches_hostTurn {s : State} (hidle : s.busy = false) :
    ∃ later, Reaches s { s with turns := later } ∧ State.turn { s with turns := later } = .host := by
  have hprogress (u : State) (hu : ∃ later, u = { s with turns := later }) :
      u.turn = .host ∨ (u.turns ≠ [] ∧ ∃ t, step u = .next t ∧ ∃ later, t = { s with turns := later }) := by
    obtain ⟨later, rfl⟩ := hu
    have hstep := hostTurn_or_step_of_idle (s := { s with turns := later }) hidle
    exact hstep.imp_right fun ⟨hne, hstep⟩ => ⟨hne, _, hstep, later.tail, rfl⟩
  obtain ⟨t, hreach, ⟨later, rfl⟩, hturn⟩ := exists_reaches_of_progress hprogress ⟨s.turns, rfl⟩
  exact ⟨later, hreach, hturn⟩

/-- With no command in flight the host's next operation comes to be performed, after some turns of the idle engine. -/
theorem reaches_hostPerform {s : State} {op : HostOp} {rest : List HostOp} (hidle : s.busy = false)
    (hq : s.hostQueue = op :: rest) :
    ∃ later, ∀ t, hostPerform op { s with hostQueue := rest, turns := later } = .next t → Reaches s t := by
  obtain ⟨later, hreach, hturn⟩ := reaches_hostTurn hidle
  have hnext : State.HostNext { s with turns := later } op rest := ⟨hq, hturn⟩
  exact ⟨later.tail, fun t ht => hreach.trans (reaches_of_step ((step_of_hostNext hnext).trans ht))⟩

/-! ## With a command in flight -/

theorem turns_ne_nil_of_host {s : State} (hbusy : s.busy = true) (hturn : s.turn = .host) : s.turns ≠ [] := by
  intro hnil
  rw [turn_of_turns_nil hnil, hbusy, if_pos rfl] at hturn
  cases hturn

theorem sameEngine_trans {s t u : State} (hst : SameEngine s t) (htu : SameEngine t u) : SameEngine s u := by
  obtain ⟨h1, h2, h3, h4, h5, h6, h7, h8⟩ := hst
  obtain ⟨g1, g2, g3, g4, g5, g6, g7, g8⟩ := htu
  exact ⟨g1.trans h1, g2.trans h2, g3.trans h3, g4.trans h4, g5.trans h5, g6.trans h6, g7.trans h7, g8.trans h8⟩

/-- The same completion of two engines that differ in BUSY at most leaves the same engine. -/
theorem SameAnswer.sameEngine {s s' v : State} {o o' : Outcome} {busy : Bool} (h : SameAnswer s s' o o')
    (hsame : SameEngine { s with busy := busy } s') (hv : o = .next v) : ∃ t, o' = .next t ∧ SameEngine v t := by
  obtain ⟨hcommand, -, -, -, hinBuf, houtBuf, hinCap, houtCap⟩ := hsame
  cases h with
  | refuses r => cases hv
  | raises c =>
    cases hv
    exact ⟨_, rfl, hcommand, rfl, rfl, rfl, hinBuf, houtBuf, hinCap, houtCap⟩
  | finishes out rHdr rKey rPlen rPoff =>
    cases hv
    exact ⟨_, rfl, hcommand, rfl, rfl, rfl, hinBuf, congrArg (Memory.writeBytes · 0 out) houtBuf, hinCap, houtCap⟩

theorem exec_of_sameEngine {i : Instr} {s s' v : State} {busy : Bool} (hsame : SameEngine { s with busy := busy } s')
    (hv : exec i s = .next v) : ∃ t, exec i s' = .next t ∧ SameEngine v t := by
  have hengine := hsame
  obtain ⟨hcommand, -, -, -, hinBuf, -, hinCap, houtCap⟩ := hsame
  exact (SameAnswer.of_exec ⟨hcommand, hinCap, houtCap, fun a _ => by rw [hinBuf]⟩ i).sameEngine hengine hv

/-- A completion that is due on an engine as it was at `s`, BUSY aside, leaves the engine that the selected command
leaves on `s` (R19, R54). -/
theorem step_of_completionNext_of_sameEngine {s u v : State} {busy : Bool}
    (hsame : SameEngine { s with busy := busy } u) (hnext : u.CompletionNext) (hv : exec s.selected s = .next v) :
    ∃ t, step u = .next t ∧ t.busy = false ∧ t.hostQueue = u.hostQueue ∧ SameEngine v t := by
  have hselected : u.selected = s.selected := by
    obtain ⟨hcommand, -⟩ := hsame
    rw [State.selected, hcommand, State.selected]
  obtain ⟨t, ht, hvt⟩ := exec_of_sameEngine (s' := u.afterTurn) hsame hv
  obtain ⟨-, -, -, -, hqueue, -⟩ := exec_keepsInputs ht
  exact ⟨t, by rw [step_of_completionNext hnext, hselected, ht], exec_busy ht, hqueue, hvt⟩

/-- What a run with a command in flight comes to: the completion, a reset, or a host operation that stops it. -/
def State.InFlightEnds (u : State) : Prop :=
  u.CompletionNext ∨ (∃ rest, u.HostNext .reset rest) ∨ (∃ r, step u = .refused r) ∨ ∃ f, step u = .fault f

/-- A step while a command is in flight ends it, or takes a turn and leaves the engine as it is. -/
theorem step_in_flight {s : State} (hbusy : s.busy = true) :
    s.InFlightEnds ∨ (s.turns ≠ [] ∧ ∃ t, step s = .next t ∧ SameEngine s t) := by
  cases hturn : s.turn with
  | engine => exact .inl (.inl ⟨hbusy, hturn⟩)
  | host =>
    cases hstep : step s with
    | refused r => exact .inl (.inr (.inr (.inl ⟨r, hstep⟩)))
    | fault f => exact .inl (.inr (.inr (.inr ⟨f, hstep⟩)))
    | next t =>
      obtain hreset | hsame := hostTurn_of_busy hbusy hturn hstep
      · exact .inl (.inr (.inl hreset))
      · exact .inr ⟨turns_ne_nil_of_host hbusy hturn, t, rfl, hsame⟩

theorem reaches_inFlightEnds {s : State} (hbusy : s.busy = true) :
    ∃ u, Reaches s u ∧ SameEngine s u ∧ u.InFlightEnds :=
  exists_reaches_of_progress
    (fun _ hsame => (step_in_flight ((sameEngine_busy hsame).trans hbusy)).imp_right
      fun ⟨hne, t, hstep, hut⟩ => ⟨hne, t, hstep, sameEngine_trans hsame hut⟩)
    (sameEngine_refl s)

/-! ## START, then wait (R54, R74) -/

/-- With no command in flight and its input written, a START that is next comes to be performed: BUSY is 1 and nothing
else of the engine has changed. -/
theorem reaches_start {s : State} {rest : List HostOp} (hidle : s.busy = false) (hready : s.inputReady = true)
    (hq : s.hostQueue = .wr 32 0x20 1 :: rest) :
    ∃ t, Reaches s t ∧ SameEngine { s with busy := true } t ∧ t.hostQueue = rest := by
  obtain ⟨later, hreach⟩ := reaches_hostPerform hidle hq
  refine ⟨{ s with busy := true, hostQueue := rest, turns := later }, hreach _ ?_, sameEngine_refl _, rfl⟩
  calc hostPerform (.wr 32 0x20 1) { s with hostQueue := rest, turns := later }
      = writeRegister .start 1 { s with hostQueue := rest, turns := later } := hostWriteReg_offset .start 1 _
    _ = startCommand { s with hostQueue := rest, turns := later } := by
        rw [writeRegister_start_go (by decide)]
        exact if_neg (Bool.eq_false_iff.1 hidle)
    _ = _ := startCommand_of_inputReady (s := { s with hostQueue := rest, turns := later }) hready

/-- A host that waits stays at its `wait` until the completion is due. -/
theorem reaches_completionNext_of_wait {s : State} {rest : List HostOp} (hbusy : s.busy = true)
    (hq : s.hostQueue = .wait :: rest) :
    ∃ u, Reaches s u ∧ (SameEngine s u ∧ u.hostQueue = .wait :: rest) ∧ u.CompletionNext := by
  refine exists_reaches_of_progress (fun u hu => ?_) ⟨sameEngine_refl s, hq⟩
  obtain ⟨hsame, huq⟩ := hu
  have hubusy : u.busy = true := (sameEngine_busy hsame).trans hbusy
  cases hturn : u.turn with
  | engine => exact .inl ⟨hubusy, hturn⟩
  | host =>
    refine .inr ⟨turns_ne_nil_of_host hubusy hturn, _, step_of_hostNext ⟨huq, hturn⟩, hsame, ?_⟩
    exact if_pos hubusy

/-- With no command in flight a `wait` that is next comes to read STATUS, and the host goes on. -/
theorem reaches_wait {s : State} {rest : List HostOp} (hidle : s.busy = false) (hq : s.hostQueue = .wait :: rest) :
    ∃ t, Reaches s t ∧ SameEngine s t ∧ t.hostQueue = rest ∧ t.hostReads.head? = some (.word t.statusWord) := by
  obtain ⟨later, hreach⟩ := reaches_hostPerform hidle hq
  exact ⟨_, hreach _ rfl, sameEngine_refl s, if_neg (Bool.eq_false_iff.1 hidle), rfl⟩

/-! ## `copy_out_in` (R74) -/

theorem hostCopy_of_idle {s : State} {first left : Nat} {b : Byte} (hidle : s.busy = false) (hout : first < s.outCap)
    (hb : s.outBuf.read first = some b) :
    hostCopy first (left + 1) s = .next { (s.countDraw .output).recordRead (.byte b) with
      hostQueue := .wrb .input 8 first b :: .copyOutIn (first + 1) left :: s.hostQueue } := by
  have hbyte : s.bufferByte .output first = some b := (bufferByte_of_idle hidle .output first).trans hb
  rw [hostCopy, if_pos (bufferAccessAdmitted_iff.2 ⟨rfl, hout⟩), hbyte]

/-- The first half of the copy of a byte: the host reads it. -/
theorem reaches_copyRead {s : State} {first left : Nat} {rest : List HostOp} {b : Byte} (hidle : s.busy = false)
    (hq : s.hostQueue = .copyOutIn first (left + 1) :: rest) (hout : first < s.outCap)
    (hb : s.outBuf.read first = some b) :
    ∃ t, Reaches s t ∧ SameEngine s t ∧
      t.hostQueue = .wrb .input 8 first b :: .copyOutIn (first + 1) left :: rest := by
  obtain ⟨later, hreach⟩ := reaches_hostPerform hidle hq
  exact ⟨_, hreach _ (hostCopy_of_idle (s := { s with hostQueue := rest, turns := later }) hidle hout hb),
    sameEngine_byteRead _ .output (.byte b) _, rfl⟩

/-- The second half: the host writes the byte. -/
theorem reaches_wrb {s : State} {a : Nat} {b : Byte} {rest : List HostOp} (hidle : s.busy = false) (ha : a < s.inCap)
    (hq : s.hostQueue = .wrb .input 8 a b :: rest) :
    ∃ t, Reaches s t ∧ SameEngine { s with inBuf := s.inBuf.write a b } t ∧ t.hostQueue = rest := by
  obtain ⟨later, hreach⟩ := reaches_hostPerform hidle hq
  exact ⟨_, hreach _ (hostWriteByte_of_idle (s := { s with hostQueue := rest, turns := later }) hidle ha b),
    sameEngine_refl _, rfl⟩

theorem sameEngine_with_inBuf {s t : State} (h : SameEngine s t) (m : Memory) :
    SameEngine { s with inBuf := m } { t with inBuf := m } := by
  obtain ⟨hcommand, hresult, hcode, hbusy, -, houtBuf, hinCap, houtCap⟩ := h
  exact ⟨hcommand, hresult, hcode, hbusy, rfl, houtBuf, hinCap, houtCap⟩

theorem reaches_copyByte {s : State} {first left : Nat} {rest : List HostOp} {b : Byte} (hidle : s.busy = false)
    (hq : s.hostQueue = .copyOutIn first (left + 1) :: rest) (hin : first < s.inCap) (hout : first < s.outCap)
    (hb : s.outBuf.read first = some b) :
    ∃ t, Reaches s t ∧ SameEngine { s with inBuf := s.inBuf.write first b } t ∧
      t.hostQueue = .copyOutIn (first + 1) left :: rest := by
  obtain ⟨u, hsu, hsame, huq⟩ := reaches_copyRead hidle hq hout hb
  have hsame' := hsame
  obtain ⟨-, -, -, hbusy, hinBuf, -, hinCap, -⟩ := hsame
  obtain ⟨t, hut, hwritten, htq⟩ := reaches_wrb (hbusy.trans hidle) (hinCap ▸ hin) huq
  rw [hinBuf] at hwritten
  exact ⟨t, hsu.trans hut, sameEngine_trans (sameEngine_with_inBuf hsame' _) hwritten, htq⟩

/-- What `copy_out_in` leaves: the bytes of the range in IN_BUF, and nothing else of the engine changed. -/
structure CopiedOutIn (s t : State) (first count : Nat) : Prop where
  engine : SameEngine { s with inBuf := t.inBuf } t
  inBuf  : ∀ a, t.inBuf.read a = if first ≤ a ∧ a < first + count then s.outBuf.read a else s.inBuf.read a

/-- A copy of one byte, then of the rest, is the copy of the range. -/
theorem CopiedOutIn.cons {s t u : State} {first left : Nat} {b : Byte} (hb : s.outBuf.read first = some b)
    (hbyte : SameEngine { s with inBuf := s.inBuf.write first b } t) (hrest : CopiedOutIn t u (first + 1) left) :
    CopiedOutIn s u first (left + 1) := by
  refine ⟨sameEngine_trans (sameEngine_with_inBuf hbyte u.inBuf) hrest.engine, fun a => ?_⟩
  obtain ⟨-, -, -, -, hinBuf, houtBuf, -, -⟩ := hbyte
  rw [hrest.inBuf, hinBuf, houtBuf, read_write]
  by_cases ha : a = first
  · rw [if_neg (by omega), if_pos ha, if_pos (by omega), ha, hb]
  · rw [if_neg ha]
    exact if_congr (by omega) rfl rfl

theorem reaches_copiedOutIn {s : State} {first count : Nat} {rest : List HostOp} (hidle : s.busy = false)
    (hq : s.hostQueue = .copyOutIn first count :: rest) (hin : first + count ≤ s.inCap)
    (hout : first + count ≤ s.outCap)
    (hwritten : ∀ a, first ≤ a → a < first + count → (s.outBuf.read a).isSome = true) :
    ∃ t, Reaches s t ∧ t.hostQueue = rest ∧ CopiedOutIn s t first count := by
  induction count generalizing s first with
  | zero =>
    obtain ⟨later, hreach⟩ := reaches_hostPerform hidle hq
    exact ⟨_, hreach _ rfl, rfl, sameEngine_refl _, fun a => (if_neg (by omega)).symm⟩
  | succ left ih =>
    obtain ⟨b, hb⟩ := Option.isSome_iff_exists.1 (hwritten first le_rfl (by omega))
    obtain ⟨t, hst, hbyte, htq⟩ := reaches_copyByte hidle hq (by omega) (by omega) hb
    have hengine := hbyte
    obtain ⟨-, -, -, hbusy, -, houtBuf, hinCap, houtCap⟩ := hbyte
    obtain ⟨u, htu, huq, hrest⟩ := ih (hbusy.trans hidle) htq (by rw [hinCap]; show _ ≤ s.inCap; omega)
      (by rw [houtCap]; show _ ≤ s.outCap; omega)
      (fun a ha ha' => by rw [houtBuf]; exact hwritten a (by omega) (by omega))
    exact ⟨u, hst.trans htu, huq, .cons hb hengine hrest⟩

/-! ## The statements -/

/-- Settles O4: CMD decodes to the selected command. -/
theorem stepCompletesTheDecodedCommand : Obligations.StepCompletesTheDecodedCommand := by
  unfold Obligations.StepCompletesTheDecodedCommand
  intro s i w hnext hcmd hdecode
  have hselected : s.selected = i := by
    rw [State.selected, hcmd]
    cases hdecode
    rfl
  rw [step_of_completionNext hnext, hselected]

/-- Settles O7, whoever moves. -/
theorem idleEngineKeepsEverything : Obligations.IdleEngineKeepsEverything := by
  unfold Obligations.IdleEngineKeepsEverything
  exact fun s hidle hq => step_of_idle hidle hq

/-- Settles O46: a reset leaves BUSY 0, and then no step without a host operation changes the engine. -/
theorem resetAbandonsTheCommandInFlight : Obligations.ResetAbandonsTheCommandInFlight := by
  unfold Obligations.ResetAbandonsTheCommandInFlight
  intro s rest hn
  refine ⟨(s.afterHostTurn rest).afterReset, step_of_hostNext hn, ⟨rfl, rfl, rfl, rfl, rfl, rfl, rfl, rfl⟩, rfl,
    fun hnext => ?_, fun hrest k => run_of_idle rfl hrest k⟩
  obtain ⟨hbusy, -⟩ := hnext
  cases hbusy

/-- Settles O47, in three parts: to the START, to the completion, to the read of STATUS. -/
theorem startThenWaitEndsWithTheResults : Obligations.StartThenWaitEndsWithTheResults := by
  unfold Obligations.StartThenWaitEndsWithTheResults
  intro s rest _ hidle hready hq
  obtain ⟨v, hv⟩ := exec_selected_next hready
  obtain ⟨s1, hstart, hs1, hq1⟩ := reaches_start hidle hready hq
  obtain ⟨s2, hwait, ⟨hs2, hq2⟩, hnext⟩ := reaches_completionNext_of_wait (sameEngine_busy hs1) hq1
  obtain ⟨s3, hstep, hidle3, hq3, hs3⟩ :=
    step_of_completionNext_of_sameEngine (sameEngine_trans hs1 hs2) hnext hv
  obtain ⟨t, hread, ht, hqt, hstatus⟩ := reaches_wait hidle3 (hq3.trans hq2)
  obtain ⟨k, hk⟩ := ((hstart.trans hwait).trans (reaches_of_step hstep)).trans hread
  exact ⟨k, t, v, hk, hv, sameEngine_trans hs3 ht, (sameEngine_busy ht).trans hidle3, hqt, hstatus⟩

/-- Settles O49, by induction on the number of bytes. -/
theorem copyOutInMovesTheBytes : Obligations.CopyOutInMovesTheBytes := by
  unfold Obligations.CopyOutInMovesTheBytes
  intro s first count rest hidle hq hin hout hwritten
  obtain ⟨t, ⟨k, hk⟩, htq, hcopied⟩ := reaches_copiedOutIn hidle hq hin hout hwritten
  obtain ⟨hcommand, hresult, hcode, hbusy, -, houtBuf, hinCap, houtCap⟩ := hcopied.engine
  exact ⟨k, t, hk, htq, houtBuf, hcommand, hresult, hcode, hbusy.trans hidle, hinCap, houtCap, hcopied.inBuf⟩

/-- Settles O50: the turns are used up, and the completion due then is that of the command on the state as it was. -/
theorem everyCommandInFlightCompletesUnderEverySchedule :
    Obligations.EveryCommandInFlightCompletesUnderEverySchedule := by
  unfold Obligations.EveryCommandInFlightCompletesUnderEverySchedule
  intro s hinv hbusy
  obtain ⟨-, -, -, hready⟩ := hinv
  obtain ⟨v, hv⟩ := exec_selected_next (hready hbusy)
  obtain ⟨u, ⟨k, hk⟩, hsame, hnext | hstops⟩ := reaches_inFlightEnds hbusy
  · obtain ⟨t, hstep, hidle, -, hvt⟩ := step_of_completionNext_of_sameEngine (busy := s.busy) hsame hnext hv
    exact ⟨k, u, hk, hsame, .inl ⟨hnext, t, v, hstep, hidle, hv, hvt⟩⟩
  · exact ⟨k, u, hk, hsame, .inr hstops⟩

end Sys2Proof.Machine
